-- ==== Sys2Proof/Word.lean ====
section
/-! DEFINITION. The word types of the engine (spec/00_scope.md R10, R11, R13): 32-bit accumulators,
8-bit data, 16-bit command words. Bit 0 is the least significant bit. -/

namespace Sys2Proof

/-- `u32`: an accumulator, a schedule word, a working variable (R10, R14). `+` wraps modulo 2^32. -/
abbrev Word := BitVec 32

/-- `u8`: a byte of a message, a secret, a key, a digest, a response (R11). -/
abbrev Byte := BitVec 8

/-- One command word of the command port, delivered whole as 16 parallel bits (R54, R70). -/
abbrev CommandWord := BitVec 16

end Sys2Proof
end

