-- ==== Sys2Proof/Syntax.lean ====
section
/-! DEFINITION. The ten commands: one constructor per row of spec/opcode_table.json (R73). -/

namespace Sys2Proof

/-- A command of the engine with its operand. Operands are the `imm8` byte as it stands (R72); which
values are legal is `Instr.WellFormed`. -/
inductive Instr where
  /-- `INIT` (R122): start a hash computation. -/
  | init
  /-- `ABSORB b` (R124): one message byte. -/
  | absorb (b : Byte)
  /-- `FINAL` (R127): pad, finish, write the digest to `DOUT`. -/
  | final
  /-- `RDDIG i` (R160): return digest byte `i`. -/
  | rddig (i : Byte)
  /-- `KEYBEGIN` (R142): start a key derivation. -/
  | keybegin
  /-- `KEYBYTE b` (R143): one secret byte. -/
  | keybyte (b : Byte)
  /-- `KEYEND` (R144): finish the key derivation. -/
  | keyend
  /-- `MACBEGIN` (R147): start a MAC with the `ipad` block. -/
  | macbegin
  /-- `MACEND` (R148): finish the inner pass and run the outer pass. -/
  | macend
  /-- `RDSTAT` (R161): return the `STATUS` byte. -/
  | rdstat
  deriving DecidableEq, Repr

end Sys2Proof
end

