-- ==== Sys2Proof/WellFormed.lean ====
section
/-! DEFINITION. Which operands are legal (spec/30_encoding.md R72). -/

namespace Sys2Proof

/-- Legal operands (R72): every byte for `ABSORB` and `KEYBYTE`; 0x00..0x1F for `RDDIG`
(`imm8[7:5]` must be 0); the other commands have no operand. -/
def Instr.WellFormed : Instr → Bool
  | .rddig i => i.toNat < 32
  | .init => true
  | .absorb _ => true
  | .final => true
  | .keybegin => true
  | .keybyte _ => true
  | .keyend => true
  | .macbegin => true
  | .macend => true
  | .rdstat => true

end Sys2Proof
end

