-- ==== Sys2Proof/Decode.lean ====
section
/-! DEFINITION. The opcode map (spec/30_encoding.md R70 to R76 and spec/opcode_table.json): decoding,
total on every 16-bit word and rejecting by name, and after it the encoder. -/

namespace Sys2Proof

/-- One row of the opcode map (R73): a word `w` is the command iff `(w and mask) = pattern`. -/
structure OpcodeRow where
  /-- The row's `match` value. -/
  pattern : CommandWord
  /-- The row's `mask`. -/
  mask : CommandWord
  /-- The command, from the `imm8` field of the word. -/
  build : Byte → Instr

/-- The fields of format `C` (R71). -/
def opField (w : CommandWord) : BitVec 4 := w.extractLsb' 12 4

/-- Bits 11:8, which must be zero in every command (R71). -/
def zeroField (w : CommandWord) : BitVec 4 := w.extractLsb' 8 4

/-- Bits 7:0: the immediate, unsigned, taken as it stands (R71, R72). -/
def immField (w : CommandWord) : Byte := w.extractLsb' 0 8

/-- The ten rows of R73, in the table's order. -/
def opcodeTable : List OpcodeRow :=
  [ ⟨0x1000, 0xFFFF, fun _ => .init⟩,
    ⟨0x2000, 0xFF00, fun b => .absorb b⟩,
    ⟨0x3000, 0xFFFF, fun _ => .final⟩,
    ⟨0x4000, 0xFFE0, fun i => .rddig i⟩,
    ⟨0x5000, 0xFFFF, fun _ => .keybegin⟩,
    ⟨0x6000, 0xFF00, fun b => .keybyte b⟩,
    ⟨0x7000, 0xFFFF, fun _ => .keyend⟩,
    ⟨0x8000, 0xFFFF, fun _ => .macbegin⟩,
    ⟨0x9000, 0xFFFF, fun _ => .macend⟩,
    ⟨0xA000, 0xFFFF, fun _ => .rdstat⟩ ]

/-- Why a word is reserved: the four cases of R74. -/
inductive Reserved where
  /-- `op` is 0x0 or 0xB..0xF. -/
  | op
  /-- The `zero` field is not 0. -/
  | zeroBits
  /-- A command without operand has a nonzero `imm8`. -/
  | immediate
  /-- `RDDIG` with `imm8[7:5]` not 0. -/
  | digestIndex
  deriving DecidableEq, Repr

/-- The name of the case of R74 under which a word that matches no row falls. R74 gives its cases no order and they overlap; that a
word of several is named by the first of `op`, `zero` field, immediate or index is the model's (DESIGN CHOICE, log entry 15). -/
def reservedCase (w : CommandWord) : Reserved :=
  if opField w = 0 ∨ 0xA < opField w then .op
  else if zeroField w ≠ 0 then .zeroBits
  else if opField w = 4 then .digestIndex
  else .immediate

/-- Decoding (R75): test the rows of R73; if none matches the word is reserved. It depends on no state. -/
def decode (w : CommandWord) : Except Reserved Instr :=
  match opcodeTable.find? (fun r => w &&& r.mask == r.pattern) with
  | some r => .ok (r.build (immField w))
  | none => .error (reservedCase w)

/-- The operation code of a command (R73). -/
def Instr.op : Instr → BitVec 4
  | .init => 0x1
  | .absorb _ => 0x2
  | .final => 0x3
  | .rddig _ => 0x4
  | .keybegin => 0x5
  | .keybyte _ => 0x6
  | .keyend => 0x7
  | .macbegin => 0x8
  | .macend => 0x9
  | .rdstat => 0xA

/-- Is the command an `ABSORB` (R124). -/
def Instr.isAbsorb (i : Instr) : Bool := i.op == 2

/-- The immediate of a command (R72): 0x00 where it takes none. -/
def Instr.imm : Instr → Byte
  | .absorb b => b
  | .rddig i => i
  | .keybyte b => b
  | .init => 0
  | .final => 0
  | .keybegin => 0
  | .keyend => 0
  | .macbegin => 0
  | .macend => 0
  | .rdstat => 0

/-- The encoder: the word `op`, `zero`, `imm8` of format `C` (R70, R71). -/
def encode (i : Instr) : CommandWord := i.op ++ (0#4 : BitVec 4) ++ i.imm

/-- The word whose bits are `w`, numbered as spec/opcode_table.json numbers them, every bit from `nbits`
up being zero. A command is one word (R70, R76). -/
def tableWord (nbits w : Nat) : CommandWord := BitVec.ofNat 16 (w % 2 ^ nbits)

/-- What the decoder reads from the word with bits `w`; none where it is reserved. -/
def decodeTableWord (nbits w : Nat) : Option Instr :=
  match decode (tableWord nbits w) with
  | .ok i => some i
  | .error _ => none

end Sys2Proof
end

