-- ==== Sys2Proof/Machine/Compress.lean ====
section
/-! DEFINITION. The compression engine (spec/40_compression.md): the bit helpers of R14 and R15, the six functions of R91 to
R96, the constants of R97 and R98, and `compress`, the block transform of R99 to R102 as a pure function (R100). The spec
marks R91 to R98 and R101 as supplied from general knowledge (log entry 10). -/

namespace Sys2Proof.Machine

/-- `shr(x, n)`: logical right shift, zeros shifted in (R14). -/
def shr (x : Word) (n : Nat) : Word := x >>> n

/-- `rotr(x, n) = shr(x, n) or ((x * 2^(32-n)) mod 2^32)` (R14). -/
def rotr (x : Word) (n : Nat) : Word := shr x n ||| (x <<< (32 - n))

/-- `be32(b0,b1,b2,b3)`, `b0` the most significant byte (R15). -/
def be32 (b0 b1 b2 b3 : Byte) : Word := b0 ++ b1 ++ b2 ++ b3

/-- `byte_k(w)` of a `u32`: `w[31-8k : 24-8k]`, for k in 0..3 (R15). -/
def byte32 (w : Word) (k : Nat) : Byte := w.extractLsb' (24 - 8 * k) 8

/-- `byte_k(w)` of a `u64`: `w[63-8k : 56-8k]`, for k in 0..7 (R15). -/
def byte64 (w : BitVec 64) (k : Nat) : Byte := w.extractLsb' (56 - 8 * k) 8

/-- `Ch` (R91). -/
def Ch (x y z : Word) : Word := (x &&& y) ^^^ (~~~x &&& z)

/-- `Maj` (R92). -/
def Maj (x y z : Word) : Word := (x &&& y) ^^^ (x &&& z) ^^^ (y &&& z)

/-- `bsig0` (R93). -/
def bsig0 (x : Word) : Word := rotr x 2 ^^^ rotr x 13 ^^^ rotr x 22

/-- `bsig1` (R94). -/
def bsig1 (x : Word) : Word := rotr x 6 ^^^ rotr x 11 ^^^ rotr x 25

/-- `ssig0` (R95): its third term is a shift. -/
def ssig0 (x : Word) : Word := rotr x 7 ^^^ rotr x 18 ^^^ shr x 3

/-- `ssig1` (R96): its third term is a shift. -/
def ssig1 (x : Word) : Word := rotr x 17 ^^^ rotr x 19 ^^^ shr x 10

/-- Word `k` of a printed row of four words, the leftmost first (R97, R98). -/
def rowWord (row : BitVec 128) (k : Nat) : Word := row.extractLsb' (96 - 32 * k) 32

/-- The table of R97 as it is printed: row `r` holds `K[4r..4r+3]`, read left to right. -/
def roundRows : Vector (BitVec 128) 16 :=
  #v[
    0x428a2f98_71374491_b5c0fbcf_e9b5dba5,
    0x3956c25b_59f111f1_923f82a4_ab1c5ed5,
    0xd807aa98_12835b01_243185be_550c7dc3,
    0x72be5d74_80deb1fe_9bdc06a7_c19bf174,
    0xe49b69c1_efbe4786_0fc19dc6_240ca1cc,
    0x2de92c6f_4a7484aa_5cb0a9dc_76f988da,
    0x983e5152_a831c66d_b00327c8_bf597fc7,
    0xc6e00bf3_d5a79147_06ca6351_14292967,
    0x27b70a85_2e1b2138_4d2c6dfc_53380d13,
    0x650a7354_766a0abb_81c2c92e_92722c85,
    0xa2bfe8a1_a81a664b_c24b8b70_c76c51a3,
    0xd192e819_d6990624_f40e3585_106aa070,
    0x19a4c116_1e376c08_2748774c_34b0bcb5,
    0x391c0cb3_4ed8aa4a_5b9cca4f_682e6ff3,
    0x748f82ee_78a5636f_84c87814_8cc70208,
    0x90befffa_a4506ceb_bef9a3f7_c67178f2
  ]

/-- The two rows of R98: `IV[0..3]` and `IV[4..7]`. -/
def initialRows : Vector (BitVec 128) 2 :=
  #v[
    0x6a09e667_bb67ae85_3c6ef372_a54ff53a,
    0x510e527f_9b05688c_1f83d9ab_5be0cd19
  ]

/-- The round constants `K[0..63]` (R97). -/
def K : Vector Word 64 := Vector.ofFn fun t => rowWord roundRows[t.val / 4] (t.val % 4)

/-- The initial hash words `IV[0..7]` (R98). -/
def IV : Vector Word 8 := Vector.ofFn fun i => rowWord initialRows[i.val / 4] (i.val % 4)

/-- The first 16 schedule words: the block's bytes as big-endian words (R51, R99). -/
def blockWords (block : Vector Byte 64) : Vector Word 16 :=
  Vector.ofFn fun t =>
    be32 block[4 * t.val] block[4 * t.val + 1] block[4 * t.val + 2] block[4 * t.val + 3]

/-- The schedule up to `W[16+k-1]`, in increasing `t` (R99). -/
def schedulePrefix (block : Vector Byte 64) : (k : Nat) → Vector Word (16 + k)
  | 0 => blockWords block
  | k + 1 =>
    let W := schedulePrefix block k
    W.push (ssig1 W[16 + k - 2] + W[16 + k - 7] + ssig0 W[16 + k - 15] + W[16 + k - 16])

/-- The message schedule `W[0..63]` (R99). -/
def schedule (block : Vector Byte 64) : Vector Word 64 := schedulePrefix block 48

/-- The working variables (R22, R101); locals of one `transform()`. -/
structure Work where
  (a b c d e f g h : Word)
  deriving DecidableEq, Repr

/-- The seed of the rounds (R101). -/
def seedWork (h : Vector Word 8) : Work := ⟨h[0], h[1], h[2], h[3], h[4], h[5], h[6], h[7]⟩

/-- One round with constant `k` and schedule word `w`: all right sides are values from before the round (R101). -/
def roundStep (k w : Word) (v : Work) : Work :=
  let T1 := v.h + bsig1 v.e + Ch v.e v.f v.g + k + w
  let T2 := bsig0 v.a + Maj v.a v.b v.c
  { a := T1 + T2, b := v.a, c := v.b, d := v.c, e := v.d + T1, f := v.e, g := v.f, h := v.g }

/-- The rounds t = 0, 1, ..., 63 in order (R101). -/
def rounds (W : Vector Word 64) (v : Work) : Work :=
  (K.toList.zip W.toList).foldl (fun v kw => roundStep kw.1 kw.2 v) v

/-- The add-back of the working variables (R102). -/
def addBack (h : Vector Word 8) (v : Work) : Vector Word 8 :=
  #v[h[0] + v.a, h[1] + v.b, h[2] + v.c, h[3] + v.d, h[4] + v.e, h[5] + v.f, h[6] + v.g, h[7] + v.h]

/-- `compress(h_in, block)` (R100): schedule, rounds, add-back. -/
def compress (h : Vector Word 8) (block : Vector Byte 64) : Vector Word 8 :=
  addBack h (rounds (schedule block) (seedWork h))

/-- The digest bytes: `out[4i+k] = byte_k(H[i])` (R53). -/
def digestBytes (h : Vector Word 8) : Vector Byte 32 :=
  Vector.ofFn fun j => byte32 h[j.val / 4] (j.val % 4)

end Sys2Proof.Machine
end

