-- ==== Sys2Proof/Config.lean ====
section
/-! DEFINITION. The free values: what the spec says holds no value after a reset event
(spec/10_state.md R39, spec/70_reset_and_hazards.md R210, spec/93_implementation_defined.md U10). Each is an
opaque constant with no body, applied to the number of reset events so far, so that nothing in Lean can
know a value of it. Log entry 2. -/

namespace Sys2Proof

/-- `H[0..7]` after the `n`-th reset event of a run (log entry 2, safe). -/
opaque Config.freeH : Nat → Vector Word 8

/-- `BUF[0..63]` after the `n`-th reset event of a run (log entry 2, safe). -/
opaque Config.freeBuf : Nat → Vector Byte 64

/-- `BITCNT` after the `n`-th reset event of a run (log entry 2, safe). -/
opaque Config.freeBitcnt : Nat → BitVec 64

/-- `KEY[0..63]` after the `n`-th reset event of a run (log entry 2, safe). -/
opaque Config.freeKey : Nat → Vector Byte 64

/-- `KLEN` after the `n`-th reset event of a run: any value of the range 0..65 of R28 (log entry 2). -/
opaque Config.freeKlen : Nat → Fin 66

/-- `DOUT[0..31]` after the `n`-th reset event of a run (log entry 2, safe). -/
opaque Config.freeDout : Nat → Vector Byte 32

end Sys2Proof
end

