-- ==== Sys2Proof/Machine/State.lean ====
section
/-! DEFINITION. The state of the engine (spec/10_state.md R20), its port, the ways a step can stop, and the
state after reset (R39, spec/70_reset_and_hazards.md R210). -/

namespace Sys2Proof.Machine

/-- The engine raises no exception, trap or fault of any kind (spec/60_exceptions.md R190), so this type has no
constructor and no step can fault. -/
inductive Fault where
  deriving DecidableEq, Repr

/-- Why a step gives no next state. `notModelled` apart, these are the contract violations of
spec/60_exceptions.md R192: the spec says that the model refuses (R191). Refusing is safe: the model says less than
the hardware does, never something false. -/
inductive Refusal where
  /-- Raised by `exec` for an instruction that has no meaning yet; no arm raises it. Safe. -/
  | notModelled (mnemonic : String)
  /-- CV1, raised by `acceptWord` for a word that decodes to reserved, and by `RDDIG` with an index that has no encoding. Safe. -/
  | reservedEncoding (w : CommandWord)
  /-- CV2, raised by `ABSORB` and `FINAL` with `HACTIVE = 0`. Safe. -/
  | hashNotActive
  /-- CV3, raised by `INIT`, `FINAL`, `KEYBEGIN`, `MACBEGIN` with `SEQ` not `IDLE`, by `ABSORB` with `SEQ` neither `IDLE` nor
  `INNER`. Safe. -/
  | interleaving
  /-- CV4, raised by `RDDIG` with `DVALID = 0`. Safe. -/
  | digestNotValid
  /-- CV5, raised by `KEYBYTE` and `KEYEND` with `SEQ` not `KEYING`, by `MACEND` with `SEQ` not `INNER`. Safe. -/
  | outOfSequence
  /-- CV6, raised by `MACBEGIN` with `SEQ = IDLE` and `KVALID = 0`. Safe. -/
  | noKey
  deriving DecidableEq, Repr

/-- The sequencer state `SEQ` (R33). Its 2-bit encoding is `Seq.code`. -/
inductive Seq where
  | idle
  | keying
  | inner
  | outer
  deriving DecidableEq, Repr

/-- What the host drives on the port (spec/30_encoding.md R78). -/
inductive PortEvent where
  /-- A command word, accepted and completed. -/
  | command (w : CommandWord)
  /-- Reset between two commands. -/
  | reset
  /-- A word that is accepted and cut short by reset before it completes (R210, U12; log entries 9 and 13). -/
  | resetDuring (w : CommandWord)
  deriving DecidableEq, Repr

/-- Everything the spec gives the machine: the tuple of R20, the two channels of the port (R78, R232; log entry 5),
and the counter of the free values (log entry 2). -/
structure State where
  /-- `H[0..7]` (R21). -/
  h : Vector Word 8
  /-- `BUF[0..63]` (R23). -/
  buf : Vector Byte 64
  /-- `BITCNT` (R24). -/
  bitcnt : BitVec 64
  /-- `KEY[0..63]` (R27). -/
  key : Vector Byte 64
  /-- `KLEN` (R28). -/
  klen : BitVec 7
  /-- `DOUT[0..31]` (R29). -/
  dout : Vector Byte 32
  /-- `HACTIVE` (R30). -/
  hactive : Bool
  /-- `DVALID` (R31). -/
  dvalid : Bool
  /-- `KVALID` (R32). -/
  kvalid : Bool
  /-- `SEQ` (R33). -/
  seq : Seq
  /-- What the host has still to drive on the port, oldest first (R78, R59). -/
  port : List PortEvent
  /-- The response bytes given so far, in order (R77, R232). -/
  rsp : List Byte
  /-- MODEL'S OWN, not the spec's: how many reset events this run has had; the index of the free values (log entry 2). -/
  resets : Nat
  deriving DecidableEq, Repr

/-- The machine right after reset (R39, R210): the flags 0 and `SEQ` `IDLE`, as the spec says. The spec gives the data
registers no value; the zeros are the model's. DESIGN CHOICE, log entry 1, unsafe. -/
def State.reset : State where
  h := Vector.replicate 8 0
  buf := Vector.replicate 64 0
  bitcnt := 0
  key := Vector.replicate 64 0
  klen := 0
  dout := Vector.replicate 32 0
  hactive := false
  dvalid := false
  kvalid := false
  seq := .idle
  port := []
  rsp := []
  resets := 0

end Sys2Proof.Machine
end

