-- ==== Sys2Proof/Machine/Flags.lean ====
section
/-! DEFINITION. The views of the state (FILL, BITCNT halves, STATUS; spec/10_state.md R24, R25, R34) and the contract tests of
spec/60_exceptions.md R192. -/

namespace Sys2Proof.Machine

/-- `FILL = BITCNT[8:3]`: how many bytes of `BUF` belong to the incomplete block; a view, not a register (R25). -/
def State.fill (s : State) : BitVec 6 := s.bitcnt.extractLsb' 3 6

/-- `BITCNT_HI = BITCNT[63:32]` (R24). -/
def State.bitcntHi (s : State) : Word := s.bitcnt.extractLsb' 32 32

/-- `BITCNT_LO = BITCNT[31:0]` (R24). -/
def State.bitcntLo (s : State) : Word := s.bitcnt.extractLsb' 0 32

/-- The 2-bit encoding of `SEQ` (R33). -/
def Seq.code : Seq → BitVec 2
  | .idle => 0
  | .keying => 1
  | .inner => 2
  | .outer => 3

/-- `STATUS = {0b000, SEQ[1:0], KVALID, DVALID, HACTIVE}` (R34, R161). -/
def State.status (s : State) : Byte :=
  (0#3 : BitVec 3) ++ s.seq.code ++ BitVec.ofBool s.kvalid ++ BitVec.ofBool s.dvalid ++ BitVec.ofBool s.hactive

/-- The shared contract test: go on if the test holds, else `raise ContractViolation` (R191, log entry 7). -/
def require (test : Bool) (r : Refusal) (go : Host.Outcome State Fault Refusal) : Host.Outcome State Fault Refusal :=
  if test then go else .refused r

/-- May the host start or end a plain use of the hash state: `SEQ = IDLE` (R120). -/
def State.isIdle (s : State) : Bool := decide (s.seq = .idle)

/-- May the host send message bytes: `SEQ` is `IDLE` or `INNER` (R120, R124; log entry 8). -/
def State.takesMessage (s : State) : Bool := decide (s.seq = .idle ∨ s.seq = .inner)

/-- Is a key derivation in progress: `SEQ = KEYING` (R143, R144). -/
def State.isKeying (s : State) : Bool := decide (s.seq = .keying)

/-- Is the inner pass of a MAC in progress: `SEQ = INNER` (R148). -/
def State.isInner (s : State) : Bool := decide (s.seq = .inner)

end Sys2Proof.Machine
end

