-- ==== Sys2Proof/Machine/Operands.lean ====
section
/-! DEFINITION. The storage spaces and the operand forms (spec/20_memory.md R50, R55, R57; spec/30_encoding.md R72). The two
byte operands are the `imm8` byte as it stands; the third form is the index into `DOUT`. -/

namespace Sys2Proof.Machine

/-- The byte-addressed spaces of R50. -/
inductive Space where
  | buf
  | key
  | dout
  deriving DecidableEq, Repr

/-- `MemRead(space, addr, 1)` (R15, R55): the byte at an index; none outside the array (R57: no command gets there). -/
def State.readByte (s : State) (sp : Space) (j : Nat) : Option Byte :=
  match sp with
  | .buf => s.buf[j]?
  | .key => s.key[j]?
  | .dout => s.dout[j]?

/-- `MemWrite(BUF, j, 1, v)` (R15, R55). -/
def State.setBuf (s : State) (j : Nat) (v : Byte) : State := { s with buf := s.buf.setIfInBounds j v }

/-- `MemWrite(KEY, j, 1, v)` (R15, R55). -/
def State.setKey (s : State) (j : Nat) (v : Byte) : State := { s with key := s.key.setIfInBounds j v }

/-- The digest byte an `RDDIG` operand names: `DOUT[i]`, none for an index of 32 or more, which is a reserved word (R160). -/
def State.digestOperand (s : State) (i : Byte) : Option Byte := s.readByte .dout i.toNat

end Sys2Proof.Machine
end

