-- ==== Sys2Proof/Machine/Ops.lean ====
section
/-! DEFINITION. The internal procedures shared by the commands: `transform()`, `init()`, `absorb(b)`, `finalize()` (spec/40
R100, spec/41 R121, R123, R126), the pad generator (spec/42 R146), the response port (R77), the reset event (R210) and
acceptance from the port. The engine has no exception entry and no return from one (R195, R196). -/

namespace Sys2Proof.Machine

/-- `transform()`: `H <- compress(H, BUF)`, nothing else (R100). -/
def transform (s : State) : State := { s with h := compress s.h s.buf }

/-- `init()` (R121). -/
def initHash (s : State) : State :=
  { s with h := IV, buf := Vector.replicate 64 0, bitcnt := 0, hactive := true }

/-- `BITCNT <- (BITCNT + 8) mod 2^64` (R123). -/
def countByte (s : State) : State := { s with bitcnt := s.bitcnt + 8 }

/-- `absorb(b)` (R123): store at `FILL`, count, and transform when the block just became full.
Stale bytes of `BUF` stay (R23, log entry 4). -/
def absorb (b : Byte) (s : State) : State :=
  let s := countByte (s.setBuf s.fill.toNat b)
  if s.fill = 0 then transform s else s

/-- `for i in ...: absorb(...)` over a string of bytes, first byte first. -/
def absorbAll (bs : List Byte) (s : State) : State := bs.foldl (fun s b => absorb b s) s

/-- `for j in lo..hi-1: a[j] <- 0x00`; empty when `lo >= hi` (R15). -/
def zeroRange {n : Nat} (lo hi : Nat) (a : Vector Byte n) : Vector Byte n :=
  Vector.ofFn fun j => if lo ≤ j.val ∧ j.val < hi then 0 else a[j.val]

/-- `for k in 0..7: a[56+k] <- byte_k(L)`: the length field, big-endian (R52). -/
def putLength (L : BitVec 64) (a : Vector Byte 64) : Vector Byte 64 :=
  Vector.ofFn fun j => if 56 ≤ j.val then byte64 L (j.val - 56) else a[j.val]

/-- The first half of `finalize()` (R126): 0x80 at `FILL`, and, when no room is left for the length, zeros to the end of the
block and a transform. Answers the state and `n`, the index from which the last block is still to be zeroed. -/
def padMark (s : State) : State × Nat :=
  let n := s.fill.toNat
  let s := s.setBuf n 0x80
  if 56 < n + 1 then (transform { s with buf := zeroRange (n + 1) 64 s.buf }, 0) else (s, n + 1)

/-- The second half of `finalize()` (R126): zeros up to 55, the length field, the last transform. -/
def padLength (L : BitVec 64) (n : Nat) (s : State) : State :=
  transform { s with buf := putLength L (zeroRange n 56 s.buf) }

/-- `finalize()` (R126): the state it leaves; the 32 bytes it returns are `digestBytes` of that state's `H`. -/
def finalize (s : State) : State :=
  let p := padMark s
  padLength s.bitcnt p.2 p.1

/-- `for j in 0..31: DOUT[j] <- d[j]` with `DVALID <- 1` and `HACTIVE <- 0` (R127, R148). -/
def deliver (d : Vector Byte 32) (s : State) : State := { s with dout := d, dvalid := true, hactive := false }

/-- `pad[i] = KEY[i] xor mask` for i in 0..63 (R146). -/
def pad (mask : Byte) (key : Vector Byte 64) : List Byte := (key.map (fun k => k ^^^ mask)).toList

/-- `ipad` (R146). -/
def ipad (key : Vector Byte 64) : List Byte := pad 0x36 key

/-- `opad` (R146). -/
def opad (key : Vector Byte 64) : List Byte := pad 0x5c key

/-- `KEY[0..31] <- d`, `KEY[32..63] <- 0x00` (R144). -/
def digestKey (d : Vector Byte 32) : Vector Byte 64 :=
  Vector.ofFn fun j => if h : j.val < 32 then d[j.val] else 0

/-- `rsp <- v`: one response byte, after those given before (R77, R232). -/
def respond (v : Byte) (s : State) : State := { s with rsp := s.rsp ++ [v] }

/-- The reset event (R210): the flags and `SEQ`; the data registers hold no value afterwards, so they take free values (log
entry 2). The port and the responses already given are the host's and stay. -/
def applyReset (s : State) : State :=
  { s with
    h := Config.freeH s.resets
    buf := Config.freeBuf s.resets
    bitcnt := Config.freeBitcnt s.resets
    key := Config.freeKey s.resets
    klen := BitVec.ofNat 7 (Config.freeKlen s.resets).val
    dout := Config.freeDout s.resets
    hactive := false
    dvalid := false
    kvalid := false
    seq := .idle
    resets := s.resets + 1 }

/-- The port with `w` as the next command word, ahead of what the host was going to drive. -/
def presentCommand (w : CommandWord) (s : State) : State := { s with port := .command w :: s.port }

end Sys2Proof.Machine
end

