-- ==== Sys2Proof/Machine/HashCommands.lean ====
section
/-! DEFINITION. The hash commands `INIT`, `ABSORB`, `FINAL` (spec/41_hash_commands.md). -/

namespace Sys2Proof.Machine

/-- `INIT` (R122). -/
def execInit (s : State) : Host.Outcome State Fault Refusal :=
  require s.isIdle .interleaving (.next (initHash s))

/-- `ABSORB b` (R124): `SEQ` is `IDLE` or `INNER`, then `HACTIVE = 1`. -/
def execAbsorb (b : Byte) (s : State) : Host.Outcome State Fault Refusal :=
  require s.takesMessage .interleaving <|
  require s.hactive .hashNotActive <|
  .next (absorb b s)

/-- `FINAL` (R127). `H`, `BUF`, `BITCNT` keep bits that hold no value (R126, log entry 3). -/
def execFinal (s : State) : Host.Outcome State Fault Refusal :=
  require s.isIdle .interleaving <|
  require s.hactive .hashNotActive <|
  let s := finalize s
  .next (deliver (digestBytes s.h) s)

end Sys2Proof.Machine
end

