-- ==== Sys2Proof/Machine/HmacCommands.lean ====
section
/-! DEFINITION. The key and MAC commands `KEYBEGIN`, `KEYBYTE`, `KEYEND`, `MACBEGIN`, `MACEND` (spec/42_hmac_commands.md). -/

namespace Sys2Proof.Machine

/-- `KEYBEGIN` (R142). -/
def execKeybegin (s : State) : Host.Outcome State Fault Refusal :=
  require s.isIdle .interleaving <|
  let s := initHash { s with kvalid := false, key := Vector.replicate 64 0, klen := 0 }
  .next { s with seq := .keying }

/-- `if KLEN < 64: KEY[KLEN] <- b` and `if KLEN < 65: KLEN <- KLEN + 1` (R143). -/
def storeSecretByte (b : Byte) (s : State) : State :=
  let n := s.klen
  let s := if n < 64 then s.setKey n.toNat b else s
  if n < 65 then { s with klen := n + 1 } else s

/-- `KEYBYTE b` (R143): store while it fits, count up to 65, and absorb every byte. -/
def execKeybyte (b : Byte) (s : State) : Host.Outcome State Fault Refusal :=
  require s.isKeying .outOfSequence (.next (absorb b (storeSecretByte b s)))

/-- The replacement of a secret longer than 64 bytes by its digest (R144). -/
def hashLongKey (s : State) : State :=
  if s.klen = 65 then
    let s := finalize s
    { s with key := digestKey (digestBytes s.h) }
  else s

/-- `KEYEND` (R144). `H`, `BUF`, `BITCNT` keep bits that hold no value (R126, log entry 3). -/
def execKeyend (s : State) : Host.Outcome State Fault Refusal :=
  require s.isKeying .outOfSequence (.next { hashLongKey s with hactive := false, kvalid := true, seq := .idle })

/-- The start of the inner pass: `init()`, `SEQ <- INNER`, the 64 `ipad` bytes (R147). -/
def beginInner (s : State) : State := absorbAll (ipad s.key) { initHash s with seq := .inner }

/-- `MACBEGIN` (R147). -/
def execMacbegin (s : State) : Host.Outcome State Fault Refusal :=
  require s.isIdle .interleaving <|
  require s.kvalid .noKey <|
  .next (beginInner s)

/-- The outer pass over an inner digest: `SEQ <- OUTER`, `init()`, the 64 `opad` bytes, the inner digest, `finalize()` (R148). -/
def outerPass (inner : Vector Byte 32) (s : State) : State :=
  let s := initHash { s with seq := .outer }
  finalize (absorbAll inner.toList (absorbAll (opad s.key) s))

/-- `MACEND` (R148): the inner digest is a local; `SEQ` is `OUTER` only inside the command (log entries 3, 8). -/
def execMacend (s : State) : Host.Outcome State Fault Refusal :=
  require s.isInner .outOfSequence <|
  let s := finalize s
  let s := outerPass (digestBytes s.h) s
  .next { deliver (digestBytes s.h) s with seq := .idle }

end Sys2Proof.Machine
end

