-- ==== Sys2Proof/Machine/ReadCommands.lean ====
section
/-! DEFINITION. The read-out commands `RDDIG`, `RDSTAT` (spec/43_readout.md). -/

namespace Sys2Proof.Machine

/-- `RDDIG i` (R160): legal in every `SEQ` state when `DVALID = 1`. An index of 32 or more is not this command but a reserved
word (CV1), tested first (R193; log entry 11). -/
def execRddig (i : Byte) (s : State) : Host.Outcome State Fault Refusal :=
  match s.digestOperand i with
  | none => .refused (.reservedEncoding (encode (.rddig i)))
  | some b => require s.dvalid .digestNotValid (.next (respond b s))

/-- `RDSTAT` (R161): legal in every state. -/
def execRdstat (s : State) : Host.Outcome State Fault Refusal := .next (respond s.status s)

end Sys2Proof.Machine
end

