-- ==== Sys2Proof/Machine/Dispatch.lean ====
section
/-! DEFINITION. One arm per command: each calls its own meaning. -/

namespace Sys2Proof.Machine

def exec (i : Instr) (s : State) : Host.Outcome State Fault Refusal :=
  match i with
  | .init => Sys2Proof.Machine.execInit s
  | .absorb b => Sys2Proof.Machine.execAbsorb b s
  | .final => Sys2Proof.Machine.execFinal s
  | .rddig j => Sys2Proof.Machine.execRddig j s
  | .keybegin => Sys2Proof.Machine.execKeybegin s
  | .keybyte b => Sys2Proof.Machine.execKeybyte b s
  | .keyend => Sys2Proof.Machine.execKeyend s
  | .macbegin => Sys2Proof.Machine.execMacbegin s
  | .macend => Sys2Proof.Machine.execMacend s
  | .rdstat => Sys2Proof.Machine.execRdstat s

end Sys2Proof.Machine
end

