-- ==== Sys2Proof/Machine/Accept.lean ====
section
/-! DEFINITION. What becomes of a word the host presents: accepted and completed, or accepted and cut short by reset
(spec/30_encoding.md R74, R75, spec/60_exceptions.md R191, R193, spec/70_reset_and_hazards.md R210). -/

namespace Sys2Proof.Machine

/-- A word accepted: decoded before anything else is tested (R193); a reserved word is CV1 (R74). -/
def acceptWord (w : CommandWord) (s : State) : Host.Outcome State Fault Refusal :=
  match decode w with
  | .error _ => .refused (.reservedEncoding w)
  | .ok i => exec i s

/-- A word accepted and cut short by reset. A command its contract allows leaves the state of the reset event whatever it had
done, and gives no response (R210, U12; log entry 9). A word that violates the contract is refused here too: the spec states
nothing of the time from the violation to the reset (R191; DESIGN CHOICE, log entry 13, safe). -/
def cutShort (w : CommandWord) (s : State) : Host.Outcome State Fault Refusal :=
  match acceptWord w s with
  | .next _ => .next (applyReset s)
  | .fault f => .fault f
  | .refused r => .refused r

end Sys2Proof.Machine
end

