-- ==== Sys2Proof/Machine/Step.lean ====
section
/-! DEFINITION. One step of the machine: the next event on the port (spec/30_encoding.md R78, spec/20_memory.md R59,
spec/70_reset_and_hazards.md R210). -/

namespace Sys2Proof.Machine

/-- One step: the oldest event on the port is taken off and takes its whole effect (R16, R59). With nothing on the port the block
does nothing (R59, log entry 6). -/
def step (s : State) : Host.Outcome State Fault Refusal :=
  match s.port with
  | [] => .next s
  | .command w :: rest => acceptWord w { s with port := rest }
  | .reset :: rest => .next (applyReset { s with port := rest })
  | .resetDuring w :: rest => cutShort w { s with port := rest }

/-- `s` with the instruction whose bits are `w` presented as the next command on the port, where `step` takes its next
instruction from; nothing else changes. -/
def State.withFetchWord (s : State) (nbits w : Nat) : State := presentCommand (tableWord nbits w) s

end Sys2Proof.Machine
end

