-- ==== Sys2Proof/Machine/Pseudo.lean ====
section
/-! DEFINITION. The pseudo-commands (spec/30_encoding.md R80 and the rules it names), each a fixed sequence of commands, and
the run of a list of commands (spec/70_reset_and_hazards.md R232). -/

namespace Sys2Proof.Machine

/-- `UPDATE s` (R128). -/
def updateCommands (s : List Byte) : List Instr := s.map .absorb

/-- `HASH s` (R129). -/
def hashCommands (s : List Byte) : List Instr := .init :: (updateCommands s ++ [.final])

/-- `SETKEY s` (R150). -/
def setkeyCommands (s : List Byte) : List Instr := .keybegin :: (s.map .keybyte ++ [.keyend])

/-- `MAC m` (R151). -/
def macCommands (m : List Byte) : List Instr := .macbegin :: (updateCommands m ++ [.macend])

/-- `RDDIGEST` (R162). -/
def rddigestCommands : List Instr := (List.range 32).map fun i => .rddig (BitVec.ofNat 8 i)

/-- A list of commands applied in order (R232); it stops at the first contract violation. -/
def runCommands : List Instr → State → Host.Outcome State Fault Refusal
  | [], s => .next s
  | i :: rest, s =>
    match exec i s with
    | .next t => runCommands rest t
    | .fault f => .fault f
    | .refused r => .refused r

/-- The same list as the host drives it on the port: one command word each (R70, R78). -/
def asPort (cmds : List Instr) : List PortEvent := cmds.map fun i => .command (encode i)

/-- Run a list of commands and give its result with the response bytes it added (R232). -/
def collect (cmds : List Instr) (s : State) : Host.Outcome (State × List Byte) Fault Refusal :=
  match runCommands cmds s with
  | .next t => .next (t, t.rsp.drop s.rsp.length)
  | .fault f => .fault f
  | .refused r => .refused r

end Sys2Proof.Machine
end

