-- ==== Sys2Proof/Machine/Software.lean ====
section
/-! DEFINITION. The host software layered on the block (spec/48_host_software.md): outside the hardware (R6), modelled as pure
functions of their arguments and of the engine driven through `MAC` and `RDDIGEST` (R170). Text is a string of bytes, one
byte per character (R178). What the spec leaves open is an argument (R12, log entry 12). -/

namespace Sys2Proof.Software

open Sys2Proof.Machine

/-- Text: one byte per character (R178). -/
abbrev Text := List Byte

/-- The bytes of an ASCII literal. -/
def ascii (s : String) : Text := s.toList.map fun c => BitVec.ofNat 8 c.toNat

/-- One hexadecimal digit, letters lowercase (R171). -/
def hexDigit (n : Nat) : Byte := BitVec.ofNat 8 (if n < 10 then 0x30 + n else 0x57 + n)

/-- Two digits of a byte, high nibble first (R171). -/
def hexByte (b : Byte) : Text := [hexDigit (b.toNat / 16), hexDigit (b.toNat % 16)]

/-- `hex(d)` (R171). -/
def hex (d : List Byte) : Text := d.flatMap hexByte

/-- `construct(secret)` is `SETKEY secret` (R170). -/
def construct (secret : List Byte) (s : State) : Host.Outcome State Fault Refusal := runCommands (setkeyCommands secret) s

/-- `sign(message)` (R172): the state afterwards and the 64 digits. -/
def sign (message : Text) (s : State) : Host.Outcome (State × Text) Fault Refusal :=
  match collect (macCommands message ++ rddigestCommands) s with
  | .next (t, d) => .next (t, hex d)
  | .fault f => .fault f
  | .refused r => .refused r

/-- `fold`: `A`..`F` to `a`..`f`, all else unchanged (R173). -/
def foldChar (c : Byte) : Byte := if 0x41 ≤ c ∧ c ≤ 0x46 then c + 0x20 else c

/-- `fold(s)` (R173). -/
def fold (s : Text) : Text := s.map foldChar

/-- `verify(message, signature)` (R174). -/
def verify (message signature : Text) (s : State) : Host.Outcome (State × Bool) Fault Refusal :=
  match sign message s with
  | .next (t, x) => .next (t, decide (fold x = fold signature))
  | .fault f => .fault f
  | .refused r => .refused r

/-- A base-10 number with no sign and no leading zeros; 0 is "0" (R176). -/
def dec (n : Nat) : Text := (Nat.toDigits 10 n).map fun c => BitVec.ofNat 8 c.toNat

/-- A plain integer: an optional leading minus, then digits (R177). -/
def decInt (n : Int) : Text := if n < 0 then ascii "-" ++ dec n.natAbs else dec n.natAbs

/-- The payload `<type>:<value>|ts:<timestamp>` (R176, R178). -/
def payload (type value : Text) (timestamp : Nat) : Text :=
  type ++ ascii ":" ++ value ++ ascii "|ts:" ++ dec timestamp

/-- `payload ‖ "|sig:" ‖ sign(payload)` (R176). -/
def signPayload (p : Text) (s : State) : Host.Outcome (State × Text) Fault Refusal :=
  match sign p s with
  | .next (t, x) => .next (t, p ++ ascii "|sig:" ++ x)
  | .fault f => .fault f
  | .refused r => .refused r

/-- What a host supplies for floating-point values of a type `α`: the number a value denotes (none for one that denotes no
number), and the rendering `fmt2`, open but for the one value the spec fixes, `fmt2(23.5) = "23.50"` (R12, R176; log entry
12). -/
structure FloatRendering (α : Type) where
  denotes : α → Option Rat
  fmt2 : α → Text
  fmt2_fixed : ∀ v, denotes v = some (47 / 2) → fmt2 v = ascii "23.50"

/-- `signSensorData`, floating-point overload (R176); the rendering is open within `FloatRendering`, the width of `timestamp` is
open (R12). -/
def signSensorFloat {α : Type} {timestampWidth : Nat} (rendering : FloatRendering α) (type : Text) (value : α)
    (timestamp : BitVec timestampWidth) (s : State) : Host.Outcome (State × Text) Fault Refusal :=
  signPayload (payload type (rendering.fmt2 value) timestamp.toNat) s

/-- `signSensorData`, integer overload (R177); signedness and widths are open (R12). -/
def signSensorInt {intWidth timestampWidth : Nat} (intSigned : Bool) (type : Text) (value : BitVec intWidth)
    (timestamp : BitVec timestampWidth) (s : State) : Host.Outcome (State × Text) Fault Refusal :=
  let v : Int := if intSigned then value.toInt else value.toNat
  signPayload (payload type (decInt v) timestamp.toNat) s

end Sys2Proof.Software
end

