-- ==== Sys2Proof/Machine/Assembler.lean ====
section
/-! DEFINITION. The assembler lines of the spec's listings (spec/30_encoding.md R79): mnemonic in capitals, one operand where the
command takes one, in hexadecimal with `0x`, in decimal, or as one character in single quotes; `;` starts a comment. What R79
leaves open of a line's characters is the model's choice: DESIGN CHOICE, log entry 14. -/

namespace Sys2Proof.Assembler

open Sys2Proof.Software

/-- What separates mnemonic, operand and comment: a space or a tab (DESIGN CHOICE, log entry 14; R79 names no character). -/
def isBlank (c : Byte) : Bool := c == 0x20 || c == 0x09

/-- Nothing but blanks, or blanks and a comment. -/
def atEnd (cs : Text) : Bool :=
  match cs.dropWhile isBlank with
  | [] => true
  | c :: _ => c == 0x3B

/-- The value of a digit in base 16, in either case (log entry 14). -/
def digitValue (c : Byte) : Option Nat :=
  let n := c.toNat
  if 0x30 ≤ n ∧ n ≤ 0x39 then some (n - 0x30)
  else if 0x61 ≤ n ∧ n ≤ 0x66 then some (n - 0x57)
  else if 0x41 ≤ n ∧ n ≤ 0x46 then some (n - 0x37)
  else none

/-- The number written by digits in a base, most significant first; none for no digits or a digit out of range. -/
def number (base : Nat) : Text → Option Nat
  | [] => none
  | cs =>
    cs.foldl (fun acc c => acc.bind fun n => (digitValue c).bind fun d => if d < base then some (n * base + d) else none)
      (some 0)

/-- The characters of a number: up to a blank or a comment. -/
def isNumberChar (c : Byte) : Bool := !isBlank c && c != 0x3B

/-- An operand below 256, with nothing after it but blanks and a comment. The quoted form takes any character of code below 128
(log entry 14). -/
def operand (cs : Text) : Option Byte :=
  match cs with
  | 0x27 :: c :: 0x27 :: rest => if atEnd rest ∧ c.toNat < 128 then some c else none
  | _ =>
    let digits := cs.takeWhile isNumberChar
    let value :=
      match digits with
      | 0x30 :: 0x78 :: hexDigits => number 16 hexDigits
      | _ => number 10 digits
    match value with
    | some n => if n < 256 ∧ atEnd (cs.dropWhile isNumberChar) then some (BitVec.ofNat 8 n) else none
    | none => none

/-- The command a line stands for; none where the line is no command (R79). R79 names the quoted form for a byte operand; that
the index of `RDDIG` may be written so too is the model's (DESIGN CHOICE, log entry 14). -/
def assemble (line : Text) : Option Instr :=
  let line := line.dropWhile isBlank
  let name := line.takeWhile isNumberChar
  let rest := (line.dropWhile isNumberChar).dropWhile isBlank
  let plain (i : Instr) : Option Instr := if atEnd rest then some i else none
  if name = ascii "INIT" then plain .init
  else if name = ascii "ABSORB" then (operand rest).map .absorb
  else if name = ascii "FINAL" then plain .final
  else if name = ascii "RDDIG" then
    (operand rest).bind fun i => if Instr.WellFormed (.rddig i) then some (.rddig i) else none
  else if name = ascii "KEYBEGIN" then plain .keybegin
  else if name = ascii "KEYBYTE" then (operand rest).map .keybyte
  else if name = ascii "KEYEND" then plain .keyend
  else if name = ascii "MACBEGIN" then plain .macbegin
  else if name = ascii "MACEND" then plain .macend
  else if name = ascii "RDSTAT" then plain .rdstat
  else none

/-- A line for a command, its operand in hexadecimal (R79). -/
def listing : Instr → Text
  | .init => ascii "INIT"
  | .absorb b => ascii "ABSORB 0x" ++ hexByte b
  | .final => ascii "FINAL"
  | .rddig i => ascii "RDDIG 0x" ++ hexByte i
  | .keybegin => ascii "KEYBEGIN"
  | .keybyte b => ascii "KEYBYTE 0x" ++ hexByte b
  | .keyend => ascii "KEYEND"
  | .macbegin => ascii "MACBEGIN"
  | .macend => ascii "MACEND"
  | .rdstat => ascii "RDSTAT"

end Sys2Proof.Assembler
end

