-- ==== Sys2Proof/Machine/Reference.lean ====
section
/-! DEFINITION. What the digests are, as functions of byte strings (spec/41_hash_commands.md R131, R132; spec/42_hmac_commands.md
R141, R152). No command uses them; statements compare the engine's streamed work with them. -/

namespace Sys2Proof.Machine

/-- The 8 bytes of a 64-bit number, most significant first (R52). -/
def be64 (L : BitVec 64) : List Byte := (List.range 8).map (byte64 L)

/-- The `i`-th 64-byte block of a byte string. -/
def blockAt (bytes : List Byte) (i : Nat) : Vector Byte 64 := Vector.ofFn fun j => bytes.getD (64 * i + j.val) 0

/-- The whole 64-byte blocks of a byte string, in order. -/
def blocks (bytes : List Byte) : List (Vector Byte 64) := (List.range (bytes.length / 64)).map (blockAt bytes)

/-- The fold of `compress` over the blocks of a byte string (R132). -/
def compressAll (h : Vector Word 8) (bytes : List Byte) : Vector Word 8 := (blocks bytes).foldl compress h

/-- The padding after `n` bytes: one 0x80, `(55 - n) mod 64` bytes 0x00, then the length field `L` (R126, R131). -/
def padding (n : Nat) (L : BitVec 64) : List Byte :=
  0x80 :: (List.replicate ((119 - n % 64) % 64) 0 ++ be64 L)

/-- The padded stream of a message: the message, then the padding with the bit length `8n` (R131). -/
def paddedStream (m : List Byte) : List Byte := m ++ padding m.length (BitVec.ofNat 64 (8 * m.length))

/-- The digest of a message: the fold of `compress` from `IV` over the padded stream (R132). -/
def sha256 (m : List Byte) : Vector Byte 32 := digestBytes (compressAll IV (paddedStream m))

/-- `normalize(secret)` (R141). -/
def normalizeSecret (secret : List Byte) : Vector Byte 64 :=
  let bytes := if secret.length > 64 then (sha256 secret).toList else secret
  Vector.ofFn fun j => bytes.getD j.val 0

/-- The MAC of a message under a normalised key (R152). -/
def macOf (key : Vector Byte 64) (m : List Byte) : Vector Byte 32 :=
  sha256 (opad key ++ (sha256 (ipad key ++ m)).toList)

/-- HMAC-SHA256 of a message under a secret (R152). -/
def hmacSha256 (secret m : List Byte) : Vector Byte 32 := macOf (normalizeSecret secret) m

/-- The FILL bytes of the incomplete block, oldest first (R23, R25). -/
def pendingBytes (s : State) : List Byte := s.buf.toList.take s.fill.toNat

/-- What finishing the hash of a state must give, from its definition: the fold of `compress` from `H` over the pending bytes,
one 0x80, the zeros and the big-endian length, written out big-endian (R52, R53, R126). -/
def digestFrom (s : State) : Vector Byte 32 :=
  digestBytes (compressAll s.h (pendingBytes s ++ padding s.fill.toNat s.bitcnt))

/-- How many blocks `HASH` of an `n`-byte message transforms (R131). -/
def transformCount (n : Nat) : Nat := n / 64 + if n % 64 ≤ 55 then 1 else 2

end Sys2Proof.Machine
end

