-- ==== Sys2Proof/Safety.lean ====
section
/-! DEFINITION. What counts as a good run (spec/70_reset_and_hazards.md R232), the invariants of spec/10_state.md R35, and which
differences between two states the host can never see (spec/10_state.md R39, spec/93_implementation_defined.md U8 to U10). -/

namespace Sys2Proof.Machine

/-- A run of a list of commands is good if no command raises a contract violation (R232). -/
def GoodRun (cmds : List Instr) (s : State) : Prop := ∃ t, runCommands cmds s = .next t

/-- `k` steps from a state, stopping at the first violation; a run as the port sees it (R232). -/
def runSteps : Nat → State → Host.Outcome State Fault Refusal
  | 0, s => .next s
  | k + 1, s =>
    match step s with
    | .next t => runSteps k t
    | .fault f => .fault f
    | .refused r => .refused r

/-- The violation a command raises, tested on the state at its start, as the table of R192 lists it with the priority of R193:
the encoding, then the `SEQ` test, then the flag test; none where it raises none. -/
def violation (i : Instr) (s : State) : Option Refusal :=
  match i with
  | .init => if s.seq ≠ .idle then some .interleaving else none
  | .absorb _ =>
    if s.seq = .keying then some .interleaving else if s.hactive = false then some .hashNotActive else none
  | .final =>
    if s.seq ≠ .idle then some .interleaving else if s.hactive = false then some .hashNotActive else none
  | .rddig j =>
    if 32 ≤ j.toNat then some (.reservedEncoding (encode (.rddig j)))
    else if s.dvalid = false then some .digestNotValid else none
  | .keybegin => if s.seq ≠ .idle then some .interleaving else none
  | .keybyte _ => if s.seq ≠ .keying then some .outOfSequence else none
  | .keyend => if s.seq ≠ .keying then some .outOfSequence else none
  | .macbegin =>
    if s.seq ≠ .idle then some .interleaving else if s.kvalid = false then some .noKey else none
  | .macend => if s.seq ≠ .inner then some .outOfSequence else none
  | .rdstat => none

/-- An entry of the sequencer table: the `SEQ` at the end of the command, or the violation. -/
inductive SeqEntry where
  | goes (q : Seq)
  | violates (r : Refusal)
  deriving DecidableEq, Repr

/-- The table of R149: rows `SEQ` at the start of the command, columns the eight commands; `RDDIG` and `RDSTAT` have no column
and `OUTER` no entries. -/
def sequencerTable (hactive kvalid : Bool) : Seq → Instr → Option SeqEntry
  | .idle, .init => some (.goes .idle)
  | .idle, .absorb _ => some (if hactive then .goes .idle else .violates .hashNotActive)
  | .idle, .final => some (if hactive then .goes .idle else .violates .hashNotActive)
  | .idle, .keybegin => some (.goes .keying)
  | .idle, .keybyte _ => some (.violates .outOfSequence)
  | .idle, .keyend => some (.violates .outOfSequence)
  | .idle, .macbegin => some (if kvalid then .goes .inner else .violates .noKey)
  | .idle, .macend => some (.violates .outOfSequence)
  | .keying, .init => some (.violates .interleaving)
  | .keying, .absorb _ => some (.violates .interleaving)
  | .keying, .final => some (.violates .interleaving)
  | .keying, .keybegin => some (.violates .interleaving)
  | .keying, .keybyte _ => some (.goes .keying)
  | .keying, .keyend => some (.goes .idle)
  | .keying, .macbegin => some (.violates .interleaving)
  | .keying, .macend => some (.violates .outOfSequence)
  | .inner, .init => some (.violates .interleaving)
  | .inner, .absorb _ => some (.goes .inner)
  | .inner, .final => some (.violates .interleaving)
  | .inner, .keybegin => some (.violates .interleaving)
  | .inner, .keybyte _ => some (.violates .outOfSequence)
  | .inner, .keyend => some (.violates .outOfSequence)
  | .inner, .macbegin => some (.violates .interleaving)
  | .inner, .macend => some (.goes .idle)
  | _, .rddig _ => none
  | _, .rdstat => none
  | .outer, _ => none

/-- The invariants at a command boundary (R28, R33, R35), as far as they speak of one state. -/
structure BoundaryInv (s : State) : Prop where
  /-- R35 item 1. -/
  wholeBytes : s.hactive = true → s.bitcnt.extractLsb' 0 3 = 0
  /-- R35 item 3. -/
  innerOwns : s.seq = .inner → s.hactive = true ∧ s.kvalid = true
  /-- R35 item 3. -/
  keyingOwns : s.seq = .keying → s.hactive = true ∧ s.kvalid = false
  /-- R33, R35 item 3: `OUTER` is left inside the command that enters it. -/
  neverOuter : s.seq ≠ .outer
  /-- R28, R35 item 5. -/
  klenRange : s.klen.toNat ≤ 65
  /-- R35 item 5: the part of `KEY` above the secret bytes received is 0x00. -/
  keyTail : s.seq = .keying → ∀ j, s.klen.toNat ≤ j → j < 64 → s.readByte .key j = some 0
  /-- Every secret byte is counted in `BITCNT` too (R143). -/
  secretCounted : s.seq = .keying → s.klen.toNat ≤ 64 → s.bitcnt.toNat = 8 * s.klen.toNat
  /-- The secret bytes received lie in `KEY` and, until the block is full, in `BUF` (R143, R226). -/
  secretInBuffer : s.seq = .keying → s.klen.toNat < 64 → ∀ j, j < s.klen.toNat → s.readByte .buf j = s.readByte .key j

/-- Two states that no host can tell apart now or later: the flags, `SEQ` and the responses agree, and so does every data
register that holds a value: the hash state while `HACTIVE`, the digest while `DVALID`, the key while `KVALID`, key and
count while `SEQ` is `KEYING`. `BUF` counts below `FILL` only (R35 item 4). -/
structure SameForHost (s t : State) : Prop where
  hactive : s.hactive = t.hactive
  dvalid : s.dvalid = t.dvalid
  kvalid : s.kvalid = t.kvalid
  seq : s.seq = t.seq
  rsp : s.rsp = t.rsp
  hash : s.hactive = true → s.h = t.h ∧ s.bitcnt = t.bitcnt ∧ ∀ j, j < s.fill.toNat → s.readByte .buf j = t.readByte .buf j
  digest : s.dvalid = true → s.dout = t.dout
  key : s.kvalid = true → s.key = t.key
  keying : s.seq = .keying → s.key = t.key ∧ s.klen = t.klen

/-- Two outcomes that no host can tell apart: the same refusal, or next states that are the same for the host. -/
def SameOutcome : Host.Outcome State Fault Refusal → Host.Outcome State Fault Refusal → Prop
  | .next s, .next t => SameForHost s t
  | .refused r, .refused r' => r = r'
  | .fault f, _ => nomatch f
  | _, .fault f => nomatch f
  | .next _, .refused _ => False
  | .refused _, .next _ => False

/-- The state of the hash computation after the bytes `m` have been absorbed since `init()` (R23, R24, R35 item 2): `H` is the
fold over the whole blocks, `BUF` below `FILL` holds the rest, oldest first, `BITCNT` counts `8` bits a byte. -/
structure Absorbed (m : List Byte) (s : State) : Prop where
  active : s.hactive = true
  counted : s.bitcnt = BitVec.ofNat 64 (8 * m.length)
  folded : s.h = compressAll IV m
  pending : ∀ j, j < m.length % 64 → s.readByte .buf j = m[64 * (m.length / 64) + j]?

end Sys2Proof.Machine
end

