-- ==== Sys2Proof/Certificates/Slice0/Obligations.lean ====
section
/-! DEFINITION. The statements for the provers: def Obligations.<Name> : Prop. Register values that the spec says hold no value
(spec/10_state.md R39, spec/41_hash_commands.md R126) are claimed by none of them. -/

open Sys2Proof Sys2Proof.Machine

/-! ### Encoding (spec/30_encoding.md) -/

/-- Decode and encode agree in both directions on all commands with every operand value the encoding admits. -/
def Obligations.DecodeIsInverseOfEncode : Prop :=
  ∀ (w : CommandWord) (i : Instr), decode w = .ok i ↔ i.WellFormed = true ∧ encode i = w

/-- The opcode map, row by row: a word is the command iff `(w and mask) = match`, and the operand is `imm8` as it stands. -/
def Obligations.DecodeFollowsOpcodeMap : Prop :=
  ∀ w : CommandWord,
    (decode w = .ok .init ↔ w &&& 0xFFFF = 0x1000) ∧
    (∀ b : Byte, decode w = .ok (.absorb b) ↔ w &&& 0xFF00 = 0x2000 ∧ b.toNat = w.toNat % 256) ∧
    (decode w = .ok .final ↔ w &&& 0xFFFF = 0x3000) ∧
    (∀ j : Byte, decode w = .ok (.rddig j) ↔ w &&& 0xFFE0 = 0x4000 ∧ j.toNat = w.toNat % 32) ∧
    (decode w = .ok .keybegin ↔ w &&& 0xFFFF = 0x5000) ∧
    (∀ b : Byte, decode w = .ok (.keybyte b) ↔ w &&& 0xFF00 = 0x6000 ∧ b.toNat = w.toNat % 256) ∧
    (decode w = .ok .keyend ↔ w &&& 0xFFFF = 0x7000) ∧
    (decode w = .ok .macbegin ↔ w &&& 0xFFFF = 0x8000) ∧
    (decode w = .ok .macend ↔ w &&& 0xFFFF = 0x9000) ∧
    (decode w = .ok .rdstat ↔ w &&& 0xFFFF = 0xA000)

/-- The words that are no command are exactly the four cases of 30_encoding.md section 3 (R74, without its counts). -/
def Obligations.ReservedWordsAreTheFourCases : Prop :=
  ∀ w : CommandWord,
    (∃ e, decode w = .error e) ↔
      (w.toNat / 4096 = 0 ∨ 0xB ≤ w.toNat / 4096) ∨
      w.toNat / 256 % 16 ≠ 0 ∨
      (w.toNat / 4096 ∈ [0x1, 0x3, 0x5, 0x7, 0x8, 0x9, 0xA] ∧ w.toNat % 256 ≠ 0) ∨
      (w.toNat / 4096 = 4 ∧ w.toNat / 32 % 8 ≠ 0)

/-- Words written out from the opcode map decode to the commands they stand for, their neighbours to none (sanity). -/
def Obligations.SpecWordsDecode : Prop :=
  decode 0b0001000000000000 = .ok .init ∧
  decode 0b0010000001100001 = .ok (.absorb 0x61) ∧
  decode 0b0011000000000000 = .ok .final ∧
  decode 0b0100000000011111 = .ok (.rddig 31) ∧
  decode 0b0101000000000000 = .ok .keybegin ∧
  decode 0b0110000011111111 = .ok (.keybyte 0xff) ∧
  decode 0b0111000000000000 = .ok .keyend ∧
  decode 0b1000000000000000 = .ok .macbegin ∧
  decode 0b1001000000000000 = .ok .macend ∧
  decode 0b1010000000000000 = .ok .rdstat ∧
  decode 0b0100000000100000 = .error .digestIndex ∧
  decode 0b0011000000000001 = .error .immediate ∧
  decode 0b0010000100000000 = .error .zeroBits ∧
  decode 0b1011000000000000 = .error .op

/-- An assembled listing line is the command it lists, for every well-formed command (R79; the listing form with a hexadecimal
operand is the model's choice among the forms R79 allows). -/
def Obligations.AssembleListingGivesCommandBack : Prop :=
  ∀ i : Instr, i.WellFormed = true → Assembler.assemble (Assembler.listing i) = some i

/-! ### Steps and runs (spec/20_memory.md section 4, spec/70_reset_and_hazards.md section 4) -/

/-- A step with a command word on the port is `exec` of the command the word decodes to, on the state with that word taken off
the port; in particular for the word of every well-formed command. -/
def Obligations.StepRunsDecodedCommand : Prop :=
  ∀ (s : State) (w : CommandWord) (rest : List PortEvent), s.port = .command w :: rest →
    (∀ i, decode w = .ok i → step s = exec i { s with port := rest }) ∧
    (∀ i : Instr, i.WellFormed = true → encode i = w → step s = exec i { s with port := rest })

/-- A reserved word is refused as CV1 whatever the state: decoding comes before every other test. -/
def Obligations.ReservedWordRefusedFirst : Prop :=
  ∀ (s : State) (w : CommandWord) (rest : List PortEvent) (e : Reserved),
    s.port = .command w :: rest → decode w = .error e → step s = .refused (.reservedEncoding w)

/-- Driving a list of commands on the port, word by word through `step`, is the run of that list. -/
def Obligations.PortRunIsCommandRun : Prop :=
  ∀ (cmds : List Instr) (s : State) (rest : List PortEvent), (∀ i ∈ cmds, i.WellFormed = true) →
    s.port = asPort cmds ++ rest →
    runSteps cmds.length s = runCommands cmds { s with port := rest }

/-! ### Reset (spec/70_reset_and_hazards.md) -/

/-- The state after reset: flags 0, `SEQ` `IDLE`, `STATUS` 0x00; of the data registers nothing is said. -/
def Obligations.ResetStateHasFlagsClear : Prop :=
  State.reset.hactive = false ∧ State.reset.dvalid = false ∧ State.reset.kvalid = false ∧ State.reset.seq = .idle ∧
  State.reset.status = 0x00

/-- The reset event: between commands in every state; in the middle of a command, in every state where the contract allows that
command. A word that violates the contract and is cut short is refused under its label, as it is when it is not cut short. That
the port list goes on is log entry 5, that a command cut short gives no response log entry 9, that a violating word ends the run
though reset cuts it short log entry 13. `SEQ = OUTER`, which no command boundary has, is left out of the clauses on words cut
short. -/
def Obligations.ResetEventClearsFlags : Prop :=
  (∀ (s : State) (rest : List PortEvent),
    (s.port = .reset :: rest ∨
      ∃ w i, s.port = .resetDuring w :: rest ∧ decode w = .ok i ∧ s.seq ≠ .outer ∧ violation i s = none) →
    ∃ t, step s = .next t ∧ t.hactive = false ∧ t.dvalid = false ∧ t.kvalid = false ∧ t.seq = .idle ∧
      t.port = rest ∧ t.rsp = s.rsp) ∧
  (∀ (s : State) (w : CommandWord) (rest : List PortEvent), s.port = .resetDuring w :: rest →
    (∀ e, decode w = .error e → step s = .refused (.reservedEncoding w)) ∧
    (∀ i r, decode w = .ok i → s.seq ≠ .outer → violation i s = some r → step s = .refused r))

/-- What a host may send first after reset, and the violation of everything else. -/
def Obligations.FirstCommandsAfterReset : Prop :=
  ∀ s : State, s.hactive = false → s.dvalid = false → s.kvalid = false → s.seq = .idle →
    (∃ t, exec .init s = .next t) ∧ (∃ t, exec .keybegin s = .next t) ∧
    exec .rdstat s = .next { s with rsp := s.rsp ++ [0x00] } ∧
    (∀ b, exec (.absorb b) s = .refused .hashNotActive) ∧ exec .final s = .refused .hashNotActive ∧
    (∀ j : Byte, j.toNat < 32 → exec (.rddig j) s = .refused .digestNotValid) ∧
    (∀ b, exec (.keybyte b) s = .refused .outOfSequence) ∧ exec .keyend s = .refused .outOfSequence ∧
    exec .macend s = .refused .outOfSequence ∧ exec .macbegin s = .refused .noKey

/-! ### The compression function (spec/40_compression.md) -/

/-- `Ch` chooses and `Maj` takes the majority, bit by bit. The spec marks both definitions as supplied from general knowledge
(G5; log entry 10). -/
def Obligations.ChooseAndMajorityBitByBit : Prop :=
  ∀ (x y z : Word) (i : Nat), i < 32 →
    (Ch x y z).getLsbD i = (if x.getLsbD i then y.getLsbD i else z.getLsbD i) ∧
    (Maj x y z).getLsbD i = decide (2 ≤ (x.getLsbD i).toNat + (y.getLsbD i).toNat + (z.getLsbD i).toNat)

/-- Each bit of the four mixing functions from the bits of the operand: three rotations, or two rotations and a shift that lets
zeros in. The spec marks the amounts as supplied from general knowledge (G3, G4; log entry 10). -/
def Obligations.MixingFunctionsBitByBit : Prop :=
  ∀ (x : Word) (i : Nat), i < 32 →
    (bsig0 x).getLsbD i =
      ((x.getLsbD ((i + 2) % 32) ^^ x.getLsbD ((i + 13) % 32)) ^^ x.getLsbD ((i + 22) % 32)) ∧
    (bsig1 x).getLsbD i =
      ((x.getLsbD ((i + 6) % 32) ^^ x.getLsbD ((i + 11) % 32)) ^^ x.getLsbD ((i + 25) % 32)) ∧
    (ssig0 x).getLsbD i =
      ((x.getLsbD ((i + 7) % 32) ^^ x.getLsbD ((i + 18) % 32)) ^^ (if i + 3 < 32 then x.getLsbD (i + 3) else false)) ∧
    (ssig1 x).getLsbD i =
      ((x.getLsbD ((i + 17) % 32) ^^ x.getLsbD ((i + 19) % 32)) ^^ (if i + 10 < 32 then x.getLsbD (i + 10) else false))

/-- The message schedule: the block's bytes as big-endian words, then the recurrence. -/
def Obligations.ScheduleIsTheRecurrence : Prop :=
  ∀ block : Vector Byte 64,
    (∀ (t : Nat) (ht : t < 16),
      (schedule block)[t].toNat =
        block[4 * t].toNat * 2 ^ 24 + block[4 * t + 1].toNat * 2 ^ 16 + block[4 * t + 2].toNat * 2 ^ 8
          + block[4 * t + 3].toNat) ∧
    (∀ (t : Nat) (h16 : 16 ≤ t) (ht : t < 64),
      (schedule block)[t] =
        ssig1 (schedule block)[t - 2] + (schedule block)[t - 7] + ssig0 (schedule block)[t - 15]
          + (schedule block)[t - 16])

/-- `compress` is 64 rounds in order from the seed `H`, then the add-back. The spec marks the formulas of `T1` and `T2` as
supplied from general knowledge (G6; log entry 10). -/
def Obligations.CompressIsRoundsThenAddBack : Prop :=
  ∀ (h : Vector Word 8) (block : Vector Byte 64), ∃ v : Nat → Work,
    v 0 = ⟨h[0], h[1], h[2], h[3], h[4], h[5], h[6], h[7]⟩ ∧
    (∀ (t : Nat) (ht : t < 64),
      let T1 := (v t).h + bsig1 (v t).e + Ch (v t).e (v t).f (v t).g + K[t] + (schedule block)[t]
      let T2 := bsig0 (v t).a + Maj (v t).a (v t).b (v t).c
      v (t + 1) = ⟨T1 + T2, (v t).a, (v t).b, (v t).c, (v t).d + T1, (v t).e, (v t).f, (v t).g⟩) ∧
    compress h block =
      #v[h[0] + (v 64).a, h[1] + (v 64).b, h[2] + (v 64).c, h[3] + (v 64).d, h[4] + (v 64).e, h[5] + (v 64).f,
        h[6] + (v 64).g, h[7] + (v 64).h]

/-- The digest bytes are the words big-endian, in index order. -/
def Obligations.DigestIsBigEndianWords : Prop :=
  ∀ (h : Vector Word 8) (i k : Nat) (hi : i < 8) (hk : k < 4),
    ((digestBytes h)[4 * i + k]).toNat = h[i].toNat / 2 ^ (24 - 8 * k) % 256

/-- The two digests the source publishes: SHA-256 of the empty message, and HMAC-SHA256 of "Hi There" under 20 bytes 0x0b, each
produced by the commands from the reset state. -/
def Obligations.PublishedDigestsComeOut : Prop :=
  (∃ t, runCommands (hashCommands []) State.reset = .next t ∧
    Software.hex t.dout.toList =
      Software.ascii "e3b0c44298fc1c149afbf4c8996fb92427ae41e4649b934ca495991b7852b855") ∧
  (∃ k t, Software.construct (List.replicate 20 0x0b) State.reset = .next k ∧
    Software.sign (Software.ascii "Hi There") k =
      .next (t, Software.ascii "b0344c61d8db38535ca8afceaf0bf12b881dc200c9833da726e9376c2e32cff7"))

/-! ### Hash commands (spec/41_hash_commands.md) -/

/-- `INIT`: its word, its contract, its whole effect (every field not named is unchanged); twice is once. -/
def Obligations.InitStartsHash : Prop :=
  encode .init = 0x1000 ∧
  ∀ s : State,
    (s.seq ≠ .idle → exec .init s = .refused .interleaving) ∧
    (s.seq = .idle →
      exec .init s = .next { s with h := IV, buf := Vector.replicate 64 0, bitcnt := 0, hactive := true } ∧
      ∀ t, exec .init s = .next t → exec .init t = .next t)

/-- `ABSORB b`: its word, its contract, its whole effect: the byte goes to `BUF[FILL]`, the counter grows by 8 modulo 2^64, and
the 64th byte of a block, and no other, transforms. -/
def Obligations.AbsorbStoresCountsTransforms : Prop :=
  ∀ (b : Byte) (s : State),
    (encode (.absorb b)).toNat = 0x2000 + b.toNat ∧
    (s.seq = .keying → exec (.absorb b) s = .refused .interleaving) ∧
    (s.seq = .idle ∨ s.seq = .inner → s.hactive = false → exec (.absorb b) s = .refused .hashNotActive) ∧
    (s.seq = .idle ∨ s.seq = .inner → s.hactive = true →
      ∀ block, block = Vector.ofFn (fun j : Fin 64 => if j.val = s.bitcnt.toNat / 8 % 64 then b else s.buf[j.val]) →
      exec (.absorb b) s = .next { s with
        buf := block
        bitcnt := BitVec.ofNat 64 (s.bitcnt.toNat + 8)
        h := if s.bitcnt.toNat / 8 % 64 = 63 then compress s.h block else s.h })

/-- The counter of `ABSORB` as two halves with a carry. -/
def Obligations.BitCounterCarriesBetweenHalves : Prop :=
  ∀ (b : Byte) (s t : State), exec (.absorb b) s = .next t →
    t.bitcntLo = s.bitcntLo + 8 ∧
    t.bitcntHi = (if t.bitcntLo.toNat < 8 then s.bitcntHi + 1 else s.bitcntHi) ∧
    (s.bitcnt.toNat % 8 = 0 → (t.bitcntLo.toNat < 8 ↔ t.bitcntLo = 0))

/-- The invariant behind every digest: a hash computation that has absorbed `m` has, after one more `ABSORB`, absorbed `m` and
that byte; `INIT` starts with nothing absorbed. It holds beyond the length bound too. -/
def Obligations.AbsorbExtendsAbsorbedMessage : Prop :=
  (∀ s t, exec .init s = .next t → Absorbed [] t) ∧
  (∀ (m : List Byte) (b : Byte) (s : State), Absorbed m s → s.seq = .idle ∨ s.seq = .inner →
    ∃ t, exec (.absorb b) s = .next t ∧ Absorbed (m ++ [b]) t)

/-- `UPDATE`: the bytes are appended to the pending bytes, the whole blocks are transformed in order, the counter grows by `8n`
modulo 2^64 and FILL by `n` modulo 64; nothing else changes. -/
def Obligations.UpdateAppendsBytes : Prop :=
  ∀ (bs : List Byte) (s : State), s.hactive = true → s.seq = .idle ∨ s.seq = .inner →
    ∃ t, runCommands (updateCommands bs) s = .next t ∧
      t.h = compressAll s.h (pendingBytes s ++ bs) ∧
      (blocks (pendingBytes s ++ bs)).length = (s.fill.toNat + bs.length) / 64 ∧
      pendingBytes t = (pendingBytes s ++ bs).drop (64 * ((s.fill.toNat + bs.length) / 64)) ∧
      t.bitcnt = BitVec.ofNat 64 (s.bitcnt.toNat + 8 * bs.length) ∧
      t.fill.toNat = (s.fill.toNat + bs.length) % 64 ∧
      t.key = s.key ∧ t.klen = s.klen ∧ t.dout = s.dout ∧ t.hactive = s.hactive ∧ t.dvalid = s.dvalid ∧
      t.kvalid = s.kvalid ∧ t.seq = s.seq ∧ t.port = s.port ∧ t.rsp = s.rsp ∧ t.resets = s.resets

/-- Read commands between the `ABSORB`s of a message change nothing but the responses: the same list without them leads to the
same state. -/
def Obligations.ReadsBetweenBytesChangeNothing : Prop :=
  ∀ (cmds : List Instr) (s t : State),
    (∀ i ∈ cmds, (∃ b, i = .absorb b) ∨ (∃ j, i = .rddig j) ∨ i = .rdstat) →
    runCommands cmds s = .next t →
    ∃ u, runCommands (cmds.filter fun i => i.isAbsorb) s = .next u ∧ { t with rsp := s.rsp } = u

/-- `FINAL`: its word, its contract; `DOUT` is the digest that the definition gives for the pending bytes, the padding and the
counter; the flags; what is unchanged. Of `H`, `BUF` and `BITCNT` nothing is said: they hold no value afterwards (R126). -/
def Obligations.FinalDeliversDigest : Prop :=
  encode .final = 0x3000 ∧
  ∀ s : State,
    (s.seq ≠ .idle → exec .final s = .refused .interleaving) ∧
    (s.seq = .idle → s.hactive = false → exec .final s = .refused .hashNotActive) ∧
    (s.seq = .idle → s.hactive = true →
      ∃ t, exec .final s = .next t ∧ t.dout = digestFrom s ∧ t.dvalid = true ∧ t.hactive = false ∧
        t.key = s.key ∧ t.klen = s.klen ∧ t.kvalid = s.kvalid ∧ t.seq = s.seq ∧ t.port = s.port ∧ t.rsp = s.rsp ∧
        t.resets = s.resets ∧ exec .final t = .refused .hashNotActive)

/-- The padded stream: one 0x80, zeros up to 56 modulo 64, the bit length in 8 bytes most significant first; its blocks are as
many as the rule counts. -/
def Obligations.PaddedStreamShape : Prop :=
  ∀ m : List Byte,
    (paddedStream m).length = 64 * transformCount m.length ∧
    (paddedStream m).take m.length = m ∧
    (paddedStream m)[m.length]? = some 0x80 ∧
    (∀ j, m.length < j → j + 8 < (paddedStream m).length → (paddedStream m)[j]? = some 0x00) ∧
    ((paddedStream m).drop ((paddedStream m).length - 8)).foldl (fun n b => 256 * n + b.toNat) 0 =
      8 * m.length % 2 ^ 64

/-- HEADLINE. `HASH m`, from every state with `SEQ = IDLE`, is a good run; below the length bound it leaves SHA-256 of `m` in
`DOUT`; it leaves key, key count, key flag and responses alone. -/
def Obligations.HashComputesSha256 : Prop :=
  ∀ (m : List Byte) (s : State), s.seq = .idle →
    ∃ t, runCommands (hashCommands m) s = .next t ∧ (m.length < 2 ^ 61 → t.dout = sha256 m) ∧ t.dvalid = true ∧ t.hactive = false ∧
      t.seq = .idle ∧ t.key = s.key ∧ t.klen = s.klen ∧ t.kvalid = s.kvalid ∧ t.rsp = s.rsp

/-! ### Key and MAC commands (spec/42_hmac_commands.md) -/

/-- `normalize`: its two cases, the corner cases the rule names, trailing zeros, and the law that a long secret and its digest
normalise to the same key. -/
def Obligations.NormalizeCornerCases : Prop :=
  ∀ secret : List Byte,
    (secret.length ≤ 64 → (normalizeSecret secret).toList = secret ++ List.replicate (64 - secret.length) 0) ∧
    (64 < secret.length → (normalizeSecret secret).toList = (sha256 secret).toList ++ List.replicate 32 0) ∧
    (secret.length = 64 → (normalizeSecret secret).toList = secret) ∧
    (normalizeSecret []).toList = List.replicate 64 0 ∧
    (∀ k, secret.length + k ≤ 64 → normalizeSecret (secret ++ List.replicate k 0) = normalizeSecret secret) ∧
    (64 < secret.length → normalizeSecret (sha256 secret).toList = normalizeSecret secret)

/-- `KEYBEGIN`: its word, its contract, its whole effect (every field not named is unchanged). -/
def Obligations.KeybeginStartsKey : Prop :=
  encode .keybegin = 0x5000 ∧
  ∀ s : State,
    (s.seq ≠ .idle → exec .keybegin s = .refused .interleaving) ∧
    (s.seq = .idle → exec .keybegin s = .next { s with
      kvalid := false
      key := Vector.replicate 64 0
      klen := 0
      h := IV
      buf := Vector.replicate 64 0
      bitcnt := 0
      hactive := true
      seq := .keying })

/-- `KEYBYTE b`: its word, its contract, its whole effect: stored while it fits, counted up to 65, and absorbed like a message
byte. -/
def Obligations.KeybyteStoresCountsAbsorbs : Prop :=
  ∀ (b : Byte) (s : State),
    (encode (.keybyte b)).toNat = 0x6000 + b.toNat ∧
    (s.seq ≠ .keying → exec (.keybyte b) s = .refused .outOfSequence) ∧
    (s.seq = .keying →
      ∀ block, block = Vector.ofFn (fun j : Fin 64 => if j.val = s.bitcnt.toNat / 8 % 64 then b else s.buf[j.val]) →
      exec (.keybyte b) s = .next { s with
        key := Vector.ofFn fun j : Fin 64 => if j.val = s.klen.toNat then b else s.key[j.val]
        klen := if s.klen.toNat < 65 then BitVec.ofNat 7 (s.klen.toNat + 1) else s.klen
        buf := block
        bitcnt := BitVec.ofNat 64 (s.bitcnt.toNat + 8)
        h := if s.bitcnt.toNat / 8 % 64 = 63 then compress s.h block else s.h })

/-- `KEYEND`: its word, its contract; a secret longer than 64 bytes (`KLEN = 65`) is replaced by its digest and 32 zeros, a
shorter one stays; the flags; `DOUT` and `DVALID` are not written. -/
def Obligations.KeyendFinishesKey : Prop :=
  encode .keyend = 0x7000 ∧
  ∀ s : State,
    (s.seq ≠ .keying → exec .keyend s = .refused .outOfSequence) ∧
    (s.seq = .keying →
      ∃ t, exec .keyend s = .next t ∧
        (s.klen.toNat = 65 → t.key.toList = (digestFrom s).toList ++ List.replicate 32 0) ∧
        (s.klen.toNat ≠ 65 → t.key = s.key) ∧
        t.hactive = false ∧ t.kvalid = true ∧ t.seq = .idle ∧
        t.klen = s.klen ∧ t.dout = s.dout ∧ t.dvalid = s.dvalid ∧ t.port = s.port ∧ t.rsp = s.rsp ∧
        t.resets = s.resets)

/-- HEADLINE. `SETKEY secret`, from every state with `SEQ = IDLE`, is a good run; below the length bound it leaves the
normalised secret in `KEY`; digest and responses are untouched. -/
def Obligations.SetkeyNormalizesSecret : Prop :=
  ∀ (secret : List Byte) (s : State), s.seq = .idle →
    ∃ t, runCommands (setkeyCommands secret) s = .next t ∧
      (secret.length < 2 ^ 61 → t.key = normalizeSecret secret) ∧ t.kvalid = true ∧
      t.hactive = false ∧ t.seq = .idle ∧ t.klen.toNat = min secret.length 65 ∧
      t.dout = s.dout ∧ t.dvalid = s.dvalid ∧ t.rsp = s.rsp

/-- `MACBEGIN`: its word, its contract; the hash state has absorbed exactly the `ipad` block; what is unchanged. -/
def Obligations.MacbeginAbsorbsInnerPad : Prop :=
  encode .macbegin = 0x8000 ∧
  ∀ s : State,
    (s.seq ≠ .idle → exec .macbegin s = .refused .interleaving) ∧
    (s.seq = .idle → s.kvalid = false → exec .macbegin s = .refused .noKey) ∧
    (s.seq = .idle → s.kvalid = true →
      ∃ t, exec .macbegin s = .next t ∧
        t.h = compress IV (Vector.ofFn fun j : Fin 64 => s.key[j.val] ^^^ 0x36) ∧ t.bitcnt = 512 ∧ t.fill = 0 ∧
        t.hactive = true ∧ t.seq = .inner ∧
        t.key = s.key ∧ t.klen = s.klen ∧ t.dout = s.dout ∧ t.dvalid = s.dvalid ∧ t.kvalid = s.kvalid ∧
        t.port = s.port ∧ t.rsp = s.rsp ∧ t.resets = s.resets)

/-- `MACEND`: its word, its contract; `DOUT` is SHA-256 of the `opad` block and the inner digest; the flags; what is unchanged. -/
def Obligations.MacendDeliversOuterDigest : Prop :=
  encode .macend = 0x9000 ∧
  ∀ s : State,
    (s.seq ≠ .inner → exec .macend s = .refused .outOfSequence) ∧
    (s.seq = .inner →
      ∃ t, exec .macend s = .next t ∧
        t.dout = sha256 ((List.ofFn fun j : Fin 64 => s.key[j.val] ^^^ 0x5c) ++ (digestFrom s).toList) ∧
        t.dvalid = true ∧ t.hactive = false ∧ t.seq = .idle ∧
        t.key = s.key ∧ t.klen = s.klen ∧ t.kvalid = s.kvalid ∧ t.port = s.port ∧ t.rsp = s.rsp ∧
        t.resets = s.resets)

/-- HEADLINE. `MAC m`, with `SEQ = IDLE` and a complete key, is a good run; below the length bound it leaves the HMAC of `m` under
the key in `DOUT`, and `SETKEY secret; MAC m` leaves HMAC-SHA256 of `m` under `secret`; the key is unchanged. -/
def Obligations.MacComputesHmac : Prop :=
  (∀ (m : List Byte) (s : State), s.seq = .idle → s.kvalid = true →
    ∃ t, runCommands (macCommands m) s = .next t ∧ (m.length + 64 < 2 ^ 61 → t.dout = macOf s.key m) ∧ t.dvalid = true ∧ t.hactive = false ∧
      t.seq = .idle ∧ t.key = s.key ∧ t.kvalid = true ∧ t.rsp = s.rsp) ∧
  (∀ (secret m : List Byte) (s : State), secret.length < 2 ^ 61 → m.length + 64 < 2 ^ 61 → s.seq = .idle →
    ∃ t, runCommands (setkeyCommands secret ++ macCommands m) s = .next t ∧ t.dout = hmacSha256 secret m ∧
      t.dvalid = true)

/-- The key outlives any number of MACs: a MAC after another MAC, after a plain hash or after an abandoned plain hash gives the
same digest as that MAC alone; no length bound is needed. -/
def Obligations.MacDoesNotDependOnEarlierUse : Prop :=
  ∀ (a b : List Byte) (s : State), s.seq = .idle → s.kvalid = true →
    ∃ t u v w, runCommands (macCommands b) s = .next t ∧
      runCommands (macCommands a ++ macCommands b) s = .next u ∧ u.dout = t.dout ∧
      runCommands (hashCommands a ++ macCommands b) s = .next v ∧ v.dout = t.dout ∧
      runCommands (.init :: (updateCommands a ++ macCommands b)) s = .next w ∧ w.dout = t.dout

/-! ### Read-out commands (spec/43_readout.md) -/

/-- `RDDIG i`: its word, an index of 32 or more is no command, its contract, its whole effect in every `SEQ` state; the digest
byte it returns stays until a `FINAL` or a `MACEND`. That `exec` refuses such an index as CV1 is read from the rule (log entry
11). -/
def Obligations.RddigReturnsDigestByte : Prop :=
  (∀ (i : Instr) (s t : State), i ≠ .final → i ≠ .macend → exec i s = .next t → t.dout = s.dout ∧ t.dvalid = s.dvalid) ∧
  ∀ (j : Byte) (s : State),
    (encode (.rddig j)).toNat = 0x4000 + j.toNat ∧
    (32 ≤ j.toNat → (∃ e, decode (encode (.rddig j)) = .error e) ∧
      exec (.rddig j) s = .refused (.reservedEncoding (encode (.rddig j)))) ∧
    (∀ hj : j.toNat < 32,
      (s.dvalid = false → exec (.rddig j) s = .refused .digestNotValid) ∧
      (s.dvalid = true → exec (.rddig j) s = .next { s with rsp := s.rsp ++ [s.dout[j.toNat]] }))

/-- `RDDIGEST` answers the 32 digest bytes in order and changes nothing else. -/
def Obligations.RddigestReturnsWholeDigest : Prop :=
  ∀ s : State, s.dvalid = true →
    runCommands rddigestCommands s = .next { s with rsp := s.rsp ++ s.dout.toList }

/-- `RDSTAT`: its word, legal in every state, answers `STATUS` and changes nothing else; the layout of `STATUS` bit by bit; the
values it can return at a command boundary, by the sequencer state. -/
def Obligations.RdstatReturnsStatusLayout : Prop :=
  encode .rdstat = 0xA000 ∧
  ∀ s : State, exec .rdstat s = .next { s with rsp := s.rsp ++ [s.status] } ∧
    s.status.getLsbD 0 = s.hactive ∧ s.status.getLsbD 1 = s.dvalid ∧ s.status.getLsbD 2 = s.kvalid ∧
    s.status.toNat / 8 % 4 = (match s.seq with | .idle => 0 | .keying => 1 | .inner => 2 | .outer => 3) ∧
    s.status.toNat / 32 = 0 ∧
    (BoundaryInv s →
      (s.seq = .keying → s.status = 0x09 ∨ s.status = 0x0B) ∧
      (s.seq = .inner → s.status = 0x15 ∨ s.status = 0x17) ∧
      (s.seq = .idle → s.status.toNat ≤ 7))

/-! ### The whole machine (spec/10_state.md, spec/60_exceptions.md) -/

/-- The violation table with its priority: a reserved word is CV1 before all else; a command is refused with a label exactly when
the table says so, and it completes exactly when the table has no violation for it; `RDSTAT` never violates; some hash or key
command is legal in every state. `SEQ = OUTER`, which no command boundary has, is left out. That `exec` refuses the term `RDDIG`
with an index of 32 or more, which has no word, as a reserved encoding is log entry 11. -/
def Obligations.ViolationTable : Prop :=
  (∀ (w : CommandWord) (s : State) (rest : List PortEvent), s.port = .command w :: rest → (∀ i, decode w ≠ .ok i) →
    step s = .refused (.reservedEncoding w)) ∧
  (∀ (i : Instr) (s : State), s.seq ≠ .outer →
    (∀ r, exec i s = .refused r ↔ violation i s = some r) ∧
    ((∃ t, exec i s = .next t) ↔ violation i s = none)) ∧
  (∀ s : State, ∃ t, exec .rdstat s = .next t) ∧
  (∀ s : State, s.seq ≠ .outer →
    ∃ i ∈ [Instr.init, .keybegin, .keybyte 0, .keyend, .macend], ∃ t, exec i s = .next t)

/-- The sequencer table, at every command boundary (the invariants hold): every command moves `SEQ` as its entry says or raises
its violation; the read commands never change `SEQ` and run in every `SEQ` state (`RDDIG` once a digest is valid); reset
forces `IDLE` from any state. -/
def Obligations.SequencerFollowsTable : Prop :=
  (∀ (i : Instr) (s : State), BoundaryInv s →
    match sequencerTable s.hactive s.kvalid s.seq i with
    | some (.goes q) => ∃ t, exec i s = .next t ∧ t.seq = q
    | some (.violates r) => exec i s = .refused r
    | none => (∀ t, exec i s = .next t → t.seq = s.seq) ∧
        (i.WellFormed = true → s.dvalid = true → ∃ t, exec i s = .next t)) ∧
  (∀ (s : State) (rest : List PortEvent), s.port = .reset :: rest → ∃ t, step s = .next t ∧ t.seq = .idle)

/-- Who may write what: a register or flag that a command changed is one the access table gives that command to write. -/
def Obligations.RegistersWrittenOnlyByTheirCommands : Prop :=
  ∀ (i : Instr) (s t : State), exec i s = .next t →
    (i ∉ [.keybegin, .keyend] → (∀ b, i ≠ .keybyte b) → t.key = s.key) ∧
    (i ≠ .keybegin → (∀ b, i ≠ .keybyte b) → t.klen = s.klen) ∧
    (i ∉ [.final, .macend] → t.dout = s.dout ∧ t.dvalid = s.dvalid) ∧
    (i ∉ [.keybegin, .keyend] → t.kvalid = s.kvalid) ∧
    (i ∉ [.keybegin, .keyend, .macbegin, .macend] → t.seq = s.seq) ∧
    (i ∉ [.init, .final, .keybegin, .keyend, .macbegin, .macend] → t.hactive = s.hactive) ∧
    ((∃ j, i = .rddig j) ∨ i = .rdstat → t.h = s.h ∧ t.buf = s.buf ∧ t.bitcnt = s.bitcnt) ∧
    ((∀ j, i ≠ .rddig j) → i ≠ .rdstat → t.rsp = s.rsp) ∧
    (s.dvalid = true → t.dvalid = true) ∧
    t.port = s.port ∧ t.resets = s.resets

/-- "Immutable for the lifetime of the signer": once a key is complete, no command but `KEYBEGIN` changes it or its flag. -/
def Obligations.CompleteKeyIsImmutable : Prop :=
  ∀ (i : Instr) (s t : State), BoundaryInv s → s.kvalid = true → i ≠ .keybegin → exec i s = .next t →
    t.key = s.key ∧ t.kvalid = true

/-- The invariants hold in the state after reset. -/
def Obligations.InvariantsHoldAtReset : Prop := BoundaryInv State.reset

/-- HEADLINE. Every step keeps the invariants, from every state that has them. -/
def Obligations.StepKeepsInvariants : Prop :=
  ∀ s t : State, BoundaryInv s → step s = .next t → BoundaryInv t

/-- HEADLINE. What holds no value is never seen: two states that agree on what holds a value give, under every command, the same
refusal or states that agree again, with the same responses. -/
def Obligations.ValuelessRegistersAreNeverSeen : Prop :=
  ∀ (i : Instr) (s t : State), BoundaryInv s → BoundaryInv t → SameForHost s t → SameOutcome (exec i s) (exec i t)

/-- Whatever the data registers hold after reset, a run of commands gives the same refusal or the same responses and `STATUS`:
the reset values the model names (log entry 1) and the free values (log entry 2) show nowhere. -/
def Obligations.ResetDataValuesNeverShow : Prop :=
  ∀ (cmds : List Instr) (s t : State),
    s.hactive = false → s.dvalid = false → s.kvalid = false → s.seq = .idle → s.klen.toNat ≤ 65 →
    t.hactive = false → t.dvalid = false → t.kvalid = false → t.seq = .idle → t.klen.toNat ≤ 65 →
    s.rsp = t.rsp →
    (∃ u v, runCommands cmds s = .next u ∧ runCommands cmds t = .next v ∧ u.rsp = v.rsp ∧ u.status = v.status) ∨
    (∃ r, runCommands cmds s = .refused r ∧ runCommands cmds t = .refused r)

/-- Key material and the hash state reach the host only through a digest: two states that differ in `KEY`, `KLEN`, `H`, `BUF`
and `BITCNT` alone answer every command but `FINAL` and `MACEND` alike, and still agree on all else. -/
def Obligations.SecretsReachHostOnlyThroughDigests : Prop :=
  ∀ (i : Instr) (s : State) (key : Vector Byte 64) (klen : BitVec 7) (h : Vector Word 8) (buf : Vector Byte 64)
    (bitcnt : BitVec 64), i ≠ .final → i ≠ .macend →
    match exec i s, exec i { s with key := key, klen := klen, h := h, buf := buf, bitcnt := bitcnt } with
    | .next t, .next u => t.dout = u.dout ∧ t.hactive = u.hactive ∧ t.dvalid = u.dvalid ∧ t.kvalid = u.kvalid ∧
        t.seq = u.seq ∧ t.rsp = u.rsp ∧ t.port = u.port
    | .refused r, .refused r' => r = r'
    | _, _ => False

/-! ### Host software (spec/48_host_software.md) -/

/-- `sign`: the hexadecimal digits of the HMAC of the message, 64 of them; the responses are the digest bytes; the engine is left
as `MAC` leaves it. -/
def Obligations.SignIsHexOfMac : Prop :=
  ∀ (m : Software.Text) (s : State), m.length + 64 < 2 ^ 61 → s.seq = .idle → s.kvalid = true →
    ∃ t, Software.sign m s = .next (t, Software.hex (macOf s.key m).toList) ∧
      (Software.hex (macOf s.key m).toList).length = 64 ∧
      t.rsp = s.rsp ++ (macOf s.key m).toList ∧ t.key = s.key ∧ t.kvalid = true ∧ t.seq = .idle

/-- `verify` compares after folding the case: true on the message's own signature, in either case of the letters, false on
every signature of another length or with a character that is no hexadecimal digit. -/
def Obligations.VerifyFoldsCase : Prop :=
  ∀ (m sig x : Software.Text) (s t : State), Software.sign m s = .next (t, x) →
    Software.verify m sig s = .next (t, decide (Software.fold x = Software.fold sig)) ∧
    Software.verify m x s = .next (t, true) ∧
    Software.verify m (x.map fun c => if 0x61 ≤ c ∧ c ≤ 0x66 then c - 0x20 else c) s = .next (t, true) ∧
    (sig.length ≠ 64 → Software.verify m sig s = .next (t, false)) ∧
    ((∃ c ∈ sig, Assembler.digitValue c = none) → Software.verify m sig s = .next (t, false))

/-- `signSensorData`: the wire format `<type>:<value>|ts:<timestamp>|sig:<signature>`, the signature over exactly what stands
before `|sig:`, for the floating-point form with any rendering `fmt2` that gives 23.5 as "23.50" (otherwise open: log entry 12),
with the rule's example, and for the integer form. -/
def Obligations.SensorMessageFormat : Prop :=
  (∀ (α : Type) (n : Nat) (r : Software.FloatRendering α) (type : Software.Text) (value : α) (ts : BitVec n) (s t : State)
      (x p : Software.Text),
    p = type ++ Software.ascii ":" ++ r.fmt2 value ++ Software.ascii "|ts:" ++ Software.dec ts.toNat →
    Software.sign p s = .next (t, x) →
    Software.signSensorFloat r type value ts s = .next (t, p ++ Software.ascii "|sig:" ++ x)) ∧
  (∀ (α : Type) (n : Nat) (r : Software.FloatRendering α) (value : α) (ts : BitVec n) (s t : State) (x : Software.Text),
    r.denotes value = some (47 / 2) → ts.toNat = 1000 →
    Software.sign (Software.ascii "temperature:23.50|ts:1000") s = .next (t, x) →
    Software.signSensorFloat r (Software.ascii "temperature") value ts s =
      .next (t, Software.ascii "temperature:23.50|ts:1000|sig:" ++ x)) ∧
  (∀ (k n : Nat) (signed : Bool) (type : Software.Text) (value : BitVec k) (ts : BitVec n) (s t : State)
      (x p : Software.Text),
    p = type ++ Software.ascii ":" ++ Software.decInt (if signed then value.toInt else (value.toNat : Int))
      ++ Software.ascii "|ts:" ++ Software.dec ts.toNat →
    Software.sign p s = .next (t, x) →
    Software.signSensorInt signed type value ts s = .next (t, p ++ Software.ascii "|sig:" ++ x))

/-- The decimal text of a number is canonical: its digits are decimal digits and give the number back, most significant first;
no leading zeros, 0 is "0"; an integer has a minus sign only when negative. -/
def Obligations.DecimalTextIsCanonical : Prop :=
  (∀ n : Nat,
    (Software.dec n).foldl (fun v c => 10 * v + (c.toNat - 0x30)) 0 = n ∧
    (∀ c ∈ Software.dec n, 0x30 ≤ c.toNat ∧ c.toNat ≤ 0x39) ∧
    Software.dec n ≠ [] ∧
    ((Software.dec n).head? = some 0x30 → n = 0) ∧
    Software.dec 0 = [0x30]) ∧
  (∀ z : Int,
    Software.decInt z = if z < 0 then 0x2D :: Software.dec z.natAbs else Software.dec z.natAbs)
end

