-- ==== Sys2Proof/Laws/Compress.lean ====
section
/-! SUPPORT. The bit and byte helpers, the schedule, the rounds and the digest bytes, said once. -/

namespace Sys2Proof.Machine

theorem shr_toNat (x : Word) (n : Nat) : (shr x n).toNat = x.toNat / 2 ^ n := by
  simp [shr, Nat.shiftRight_eq_div_pow]

/-- For the amounts the engine uses `rotr` is the right rotation (R14). -/
theorem rotr_eq_rotateRight (x : Word) {n : Nat} (h : n < 32) : rotr x n = x.rotateRight n := by
  rw [BitVec.rotateRight_def, Nat.mod_eq_of_lt h]
  rfl

/-- Bit `i` of a rotation is bit `(i + n) mod 32` of its operand. -/
theorem getLsbD_rotr (x : Word) {n i : Nat} (h : n < 32) (hi : i < 32) :
    (rotr x n).getLsbD i = x.getLsbD ((i + n) % 32) := by
  rw [rotr_eq_rotateRight x h, BitVec.getLsbD_rotateRight, Nat.mod_eq_of_lt h]
  by_cases hlt : i < 32 - n
  · have : (i + n) % 32 = n + i := by omega
    simp [hlt, this]
  · have : (i + n) % 32 = i - (32 - n) := by omega
    simp [hlt, this, hi]

@[simp] theorem getLsbD_shr (x : Word) (n i : Nat) : (shr x n).getLsbD i = x.getLsbD (n + i) := by
  simp [shr]

/-- Concatenation as numbers: the first operand in the more significant place (R13). -/
theorem append_toNat {m n : Nat} (x : BitVec m) (y : BitVec n) : (x ++ y).toNat = x.toNat * 2 ^ n + y.toNat := by
  rw [BitVec.toNat_append, ← Nat.shiftLeft_add_eq_or_of_lt y.isLt, Nat.shiftLeft_eq]

theorem be32_toNat (b0 b1 b2 b3 : Byte) :
    (be32 b0 b1 b2 b3).toNat = b0.toNat * 2 ^ 24 + b1.toNat * 2 ^ 16 + b2.toNat * 2 ^ 8 + b3.toNat := by
  have h : (be32 b0 b1 b2 b3).toNat = (b0 ++ b1 ++ b2 ++ b3).toNat := rfl
  rw [h, append_toNat, append_toNat, append_toNat]
  omega

theorem byte32_toNat (w : Word) (k : Nat) : (byte32 w k).toNat = w.toNat / 2 ^ (24 - 8 * k) % 256 := by
  simp [byte32, BitVec.extractLsb'_toNat, Nat.shiftRight_eq_div_pow]

theorem byte64_toNat (w : BitVec 64) (k : Nat) : (byte64 w k).toNat = w.toNat / 2 ^ (56 - 8 * k) % 256 := by
  simp [byte64, BitVec.extractLsb'_toNat, Nat.shiftRight_eq_div_pow]

@[simp] theorem getElem_blockWords (block : Vector Byte 64) {t : Nat} (h : t < 16) :
    (blockWords block)[t] = be32 block[4 * t] block[4 * t + 1] block[4 * t + 2] block[4 * t + 3] := by
  simp [blockWords]

/-- A longer schedule prefix agrees with a shorter one where both reach. -/
theorem getElem_schedulePrefix_succ (block : Vector Byte 64) {k t : Nat} (h : t < 16 + k) :
    (schedulePrefix block (k + 1))[t]'(by omega) = (schedulePrefix block k)[t] := by
  simp only [schedulePrefix]
  exact Vector.getElem_push_lt h

/-- The word a schedule prefix adds (R99). -/
theorem getElem_schedulePrefix_last (block : Vector Byte 64) (k : Nat) :
    (schedulePrefix block (k + 1))[16 + k]'(by omega) =
      ssig1 (schedulePrefix block k)[16 + k - 2] + (schedulePrefix block k)[16 + k - 7]
        + ssig0 (schedulePrefix block k)[16 + k - 15] + (schedulePrefix block k)[16 + k - 16] := by
  simp only [schedulePrefix]
  exact Vector.getElem_push_eq ..

@[simp] theorem getElem_digestBytes (h : Vector Word 8) {j : Nat} (hj : j < 32) :
    (digestBytes h)[j] = byte32 (h[j / 4]'(by omega)) (j % 4) := by
  simp [digestBytes]

end Sys2Proof.Machine
end

