-- ==== Sys2Proof/Laws/Decode.lean ====
section
/-! SUPPORT. The opcode map has no overlapping rows (spec/30_encoding.md R73), and the fields of an encoded command are what the
encoder put there. -/

namespace Sys2Proof

/-- No word matches two rows: two rows differ on a bit that both masks test. -/
theorem opcodeTable_disjoint :
    opcodeTable.Pairwise (fun r q => r.pattern &&& (r.mask &&& q.mask) ≠ q.pattern &&& (r.mask &&& q.mask)) := by
  decide

/-- The word of a command is `op * 4096 + imm8` (spec/30_encoding.md R79). -/
theorem encode_toNat (i : Instr) : (encode i).toNat = i.op.toNat * 4096 + i.imm.toNat := by
  have h : (encode i).toNat = (i.op ++ 0#4 ++ i.imm).toNat := rfl
  rw [h, Machine.append_toNat, Machine.append_toNat]
  simp
  omega

@[simp] theorem immField_encode (i : Instr) : immField (encode i) = i.imm := by
  apply BitVec.eq_of_toNat_eq
  have := i.imm.isLt
  simp only [immField, BitVec.extractLsb'_toNat, encode_toNat, Nat.shiftRight_zero]
  omega

@[simp] theorem zeroField_encode (i : Instr) : zeroField (encode i) = 0#4 := by
  apply BitVec.eq_of_toNat_eq
  have := i.imm.isLt
  simp only [zeroField, BitVec.extractLsb'_toNat, encode_toNat, Nat.shiftRight_eq_div_pow, BitVec.toNat_ofNat]
  omega

@[simp] theorem opField_encode (i : Instr) : opField (encode i) = i.op := by
  apply BitVec.eq_of_toNat_eq
  have := i.imm.isLt
  have := i.op.isLt
  simp only [opField, BitVec.extractLsb'_toNat, encode_toNat, Nat.shiftRight_eq_div_pow]
  omega

end Sys2Proof
end

