-- ==== Sys2Proof/Laws/State.lean ====
section
/-! SUPPORT. One lemma per field per named update of State, so that no proof unfolds a record update. -/

namespace Sys2Proof.Machine

@[simp] theorem State.setBuf_h (s : State) (j : Nat) (v : Byte) : (s.setBuf j v).h = s.h := rfl
@[simp] theorem State.setBuf_buf (s : State) (j : Nat) (v : Byte) : (s.setBuf j v).buf = s.buf.setIfInBounds j v := rfl
@[simp] theorem State.setBuf_bitcnt (s : State) (j : Nat) (v : Byte) : (s.setBuf j v).bitcnt = s.bitcnt := rfl
@[simp] theorem State.setBuf_key (s : State) (j : Nat) (v : Byte) : (s.setBuf j v).key = s.key := rfl
@[simp] theorem State.setBuf_klen (s : State) (j : Nat) (v : Byte) : (s.setBuf j v).klen = s.klen := rfl
@[simp] theorem State.setBuf_dout (s : State) (j : Nat) (v : Byte) : (s.setBuf j v).dout = s.dout := rfl
@[simp] theorem State.setBuf_hactive (s : State) (j : Nat) (v : Byte) : (s.setBuf j v).hactive = s.hactive := rfl
@[simp] theorem State.setBuf_dvalid (s : State) (j : Nat) (v : Byte) : (s.setBuf j v).dvalid = s.dvalid := rfl
@[simp] theorem State.setBuf_kvalid (s : State) (j : Nat) (v : Byte) : (s.setBuf j v).kvalid = s.kvalid := rfl
@[simp] theorem State.setBuf_seq (s : State) (j : Nat) (v : Byte) : (s.setBuf j v).seq = s.seq := rfl
@[simp] theorem State.setBuf_port (s : State) (j : Nat) (v : Byte) : (s.setBuf j v).port = s.port := rfl
@[simp] theorem State.setBuf_rsp (s : State) (j : Nat) (v : Byte) : (s.setBuf j v).rsp = s.rsp := rfl
@[simp] theorem State.setBuf_resets (s : State) (j : Nat) (v : Byte) : (s.setBuf j v).resets = s.resets := rfl

@[simp] theorem State.setKey_h (s : State) (j : Nat) (v : Byte) : (s.setKey j v).h = s.h := rfl
@[simp] theorem State.setKey_buf (s : State) (j : Nat) (v : Byte) : (s.setKey j v).buf = s.buf := rfl
@[simp] theorem State.setKey_bitcnt (s : State) (j : Nat) (v : Byte) : (s.setKey j v).bitcnt = s.bitcnt := rfl
@[simp] theorem State.setKey_key (s : State) (j : Nat) (v : Byte) : (s.setKey j v).key = s.key.setIfInBounds j v := rfl
@[simp] theorem State.setKey_klen (s : State) (j : Nat) (v : Byte) : (s.setKey j v).klen = s.klen := rfl
@[simp] theorem State.setKey_dout (s : State) (j : Nat) (v : Byte) : (s.setKey j v).dout = s.dout := rfl
@[simp] theorem State.setKey_hactive (s : State) (j : Nat) (v : Byte) : (s.setKey j v).hactive = s.hactive := rfl
@[simp] theorem State.setKey_dvalid (s : State) (j : Nat) (v : Byte) : (s.setKey j v).dvalid = s.dvalid := rfl
@[simp] theorem State.setKey_kvalid (s : State) (j : Nat) (v : Byte) : (s.setKey j v).kvalid = s.kvalid := rfl
@[simp] theorem State.setKey_seq (s : State) (j : Nat) (v : Byte) : (s.setKey j v).seq = s.seq := rfl
@[simp] theorem State.setKey_port (s : State) (j : Nat) (v : Byte) : (s.setKey j v).port = s.port := rfl
@[simp] theorem State.setKey_rsp (s : State) (j : Nat) (v : Byte) : (s.setKey j v).rsp = s.rsp := rfl
@[simp] theorem State.setKey_resets (s : State) (j : Nat) (v : Byte) : (s.setKey j v).resets = s.resets := rfl

@[simp] theorem transform_h (s : State) : (transform s).h = compress s.h s.buf := rfl
@[simp] theorem transform_buf (s : State) : (transform s).buf = s.buf := rfl
@[simp] theorem transform_bitcnt (s : State) : (transform s).bitcnt = s.bitcnt := rfl
@[simp] theorem transform_key (s : State) : (transform s).key = s.key := rfl
@[simp] theorem transform_klen (s : State) : (transform s).klen = s.klen := rfl
@[simp] theorem transform_dout (s : State) : (transform s).dout = s.dout := rfl
@[simp] theorem transform_hactive (s : State) : (transform s).hactive = s.hactive := rfl
@[simp] theorem transform_dvalid (s : State) : (transform s).dvalid = s.dvalid := rfl
@[simp] theorem transform_kvalid (s : State) : (transform s).kvalid = s.kvalid := rfl
@[simp] theorem transform_seq (s : State) : (transform s).seq = s.seq := rfl
@[simp] theorem transform_port (s : State) : (transform s).port = s.port := rfl
@[simp] theorem transform_rsp (s : State) : (transform s).rsp = s.rsp := rfl
@[simp] theorem transform_resets (s : State) : (transform s).resets = s.resets := rfl

@[simp] theorem initHash_h (s : State) : (initHash s).h = IV := rfl
@[simp] theorem initHash_buf (s : State) : (initHash s).buf = Vector.replicate 64 0 := rfl
@[simp] theorem initHash_bitcnt (s : State) : (initHash s).bitcnt = 0 := rfl
@[simp] theorem initHash_key (s : State) : (initHash s).key = s.key := rfl
@[simp] theorem initHash_klen (s : State) : (initHash s).klen = s.klen := rfl
@[simp] theorem initHash_dout (s : State) : (initHash s).dout = s.dout := rfl
@[simp] theorem initHash_hactive (s : State) : (initHash s).hactive = true := rfl
@[simp] theorem initHash_dvalid (s : State) : (initHash s).dvalid = s.dvalid := rfl
@[simp] theorem initHash_kvalid (s : State) : (initHash s).kvalid = s.kvalid := rfl
@[simp] theorem initHash_seq (s : State) : (initHash s).seq = s.seq := rfl
@[simp] theorem initHash_port (s : State) : (initHash s).port = s.port := rfl
@[simp] theorem initHash_rsp (s : State) : (initHash s).rsp = s.rsp := rfl
@[simp] theorem initHash_resets (s : State) : (initHash s).resets = s.resets := rfl

@[simp] theorem countByte_h (s : State) : (countByte s).h = s.h := rfl
@[simp] theorem countByte_buf (s : State) : (countByte s).buf = s.buf := rfl
@[simp] theorem countByte_bitcnt (s : State) : (countByte s).bitcnt = s.bitcnt + 8 := rfl
@[simp] theorem countByte_key (s : State) : (countByte s).key = s.key := rfl
@[simp] theorem countByte_klen (s : State) : (countByte s).klen = s.klen := rfl
@[simp] theorem countByte_dout (s : State) : (countByte s).dout = s.dout := rfl
@[simp] theorem countByte_hactive (s : State) : (countByte s).hactive = s.hactive := rfl
@[simp] theorem countByte_dvalid (s : State) : (countByte s).dvalid = s.dvalid := rfl
@[simp] theorem countByte_kvalid (s : State) : (countByte s).kvalid = s.kvalid := rfl
@[simp] theorem countByte_seq (s : State) : (countByte s).seq = s.seq := rfl
@[simp] theorem countByte_port (s : State) : (countByte s).port = s.port := rfl
@[simp] theorem countByte_rsp (s : State) : (countByte s).rsp = s.rsp := rfl
@[simp] theorem countByte_resets (s : State) : (countByte s).resets = s.resets := rfl

@[simp] theorem deliver_h (d : Vector Byte 32) (s : State) : (deliver d s).h = s.h := rfl
@[simp] theorem deliver_buf (d : Vector Byte 32) (s : State) : (deliver d s).buf = s.buf := rfl
@[simp] theorem deliver_bitcnt (d : Vector Byte 32) (s : State) : (deliver d s).bitcnt = s.bitcnt := rfl
@[simp] theorem deliver_key (d : Vector Byte 32) (s : State) : (deliver d s).key = s.key := rfl
@[simp] theorem deliver_klen (d : Vector Byte 32) (s : State) : (deliver d s).klen = s.klen := rfl
@[simp] theorem deliver_dout (d : Vector Byte 32) (s : State) : (deliver d s).dout = d := rfl
@[simp] theorem deliver_hactive (d : Vector Byte 32) (s : State) : (deliver d s).hactive = false := rfl
@[simp] theorem deliver_dvalid (d : Vector Byte 32) (s : State) : (deliver d s).dvalid = true := rfl
@[simp] theorem deliver_kvalid (d : Vector Byte 32) (s : State) : (deliver d s).kvalid = s.kvalid := rfl
@[simp] theorem deliver_seq (d : Vector Byte 32) (s : State) : (deliver d s).seq = s.seq := rfl
@[simp] theorem deliver_port (d : Vector Byte 32) (s : State) : (deliver d s).port = s.port := rfl
@[simp] theorem deliver_rsp (d : Vector Byte 32) (s : State) : (deliver d s).rsp = s.rsp := rfl
@[simp] theorem deliver_resets (d : Vector Byte 32) (s : State) : (deliver d s).resets = s.resets := rfl

@[simp] theorem respond_h (v : Byte) (s : State) : (respond v s).h = s.h := rfl
@[simp] theorem respond_buf (v : Byte) (s : State) : (respond v s).buf = s.buf := rfl
@[simp] theorem respond_bitcnt (v : Byte) (s : State) : (respond v s).bitcnt = s.bitcnt := rfl
@[simp] theorem respond_key (v : Byte) (s : State) : (respond v s).key = s.key := rfl
@[simp] theorem respond_klen (v : Byte) (s : State) : (respond v s).klen = s.klen := rfl
@[simp] theorem respond_dout (v : Byte) (s : State) : (respond v s).dout = s.dout := rfl
@[simp] theorem respond_hactive (v : Byte) (s : State) : (respond v s).hactive = s.hactive := rfl
@[simp] theorem respond_dvalid (v : Byte) (s : State) : (respond v s).dvalid = s.dvalid := rfl
@[simp] theorem respond_kvalid (v : Byte) (s : State) : (respond v s).kvalid = s.kvalid := rfl
@[simp] theorem respond_seq (v : Byte) (s : State) : (respond v s).seq = s.seq := rfl
@[simp] theorem respond_port (v : Byte) (s : State) : (respond v s).port = s.port := rfl
@[simp] theorem respond_rsp (v : Byte) (s : State) : (respond v s).rsp = s.rsp ++ [v] := rfl
@[simp] theorem respond_resets (v : Byte) (s : State) : (respond v s).resets = s.resets := rfl

@[simp] theorem presentCommand_h (w : CommandWord) (s : State) : (presentCommand w s).h = s.h := rfl
@[simp] theorem presentCommand_buf (w : CommandWord) (s : State) : (presentCommand w s).buf = s.buf := rfl
@[simp] theorem presentCommand_bitcnt (w : CommandWord) (s : State) : (presentCommand w s).bitcnt = s.bitcnt := rfl
@[simp] theorem presentCommand_key (w : CommandWord) (s : State) : (presentCommand w s).key = s.key := rfl
@[simp] theorem presentCommand_klen (w : CommandWord) (s : State) : (presentCommand w s).klen = s.klen := rfl
@[simp] theorem presentCommand_dout (w : CommandWord) (s : State) : (presentCommand w s).dout = s.dout := rfl
@[simp] theorem presentCommand_hactive (w : CommandWord) (s : State) : (presentCommand w s).hactive = s.hactive := rfl
@[simp] theorem presentCommand_dvalid (w : CommandWord) (s : State) : (presentCommand w s).dvalid = s.dvalid := rfl
@[simp] theorem presentCommand_kvalid (w : CommandWord) (s : State) : (presentCommand w s).kvalid = s.kvalid := rfl
@[simp] theorem presentCommand_seq (w : CommandWord) (s : State) : (presentCommand w s).seq = s.seq := rfl
@[simp] theorem presentCommand_port (w : CommandWord) (s : State) : (presentCommand w s).port = .command w :: s.port := rfl
@[simp] theorem presentCommand_rsp (w : CommandWord) (s : State) : (presentCommand w s).rsp = s.rsp := rfl
@[simp] theorem presentCommand_resets (w : CommandWord) (s : State) : (presentCommand w s).resets = s.resets := rfl

@[simp] theorem applyReset_h (s : State) : (applyReset s).h = Config.freeH s.resets := rfl
@[simp] theorem applyReset_buf (s : State) : (applyReset s).buf = Config.freeBuf s.resets := rfl
@[simp] theorem applyReset_bitcnt (s : State) : (applyReset s).bitcnt = Config.freeBitcnt s.resets := rfl
@[simp] theorem applyReset_key (s : State) : (applyReset s).key = Config.freeKey s.resets := rfl
@[simp] theorem applyReset_klen (s : State) : (applyReset s).klen = BitVec.ofNat 7 (Config.freeKlen s.resets).val := rfl
@[simp] theorem applyReset_dout (s : State) : (applyReset s).dout = Config.freeDout s.resets := rfl
@[simp] theorem applyReset_hactive (s : State) : (applyReset s).hactive = false := rfl
@[simp] theorem applyReset_dvalid (s : State) : (applyReset s).dvalid = false := rfl
@[simp] theorem applyReset_kvalid (s : State) : (applyReset s).kvalid = false := rfl
@[simp] theorem applyReset_seq (s : State) : (applyReset s).seq = .idle := rfl
@[simp] theorem applyReset_port (s : State) : (applyReset s).port = s.port := rfl
@[simp] theorem applyReset_rsp (s : State) : (applyReset s).rsp = s.rsp := rfl
@[simp] theorem applyReset_resets (s : State) : (applyReset s).resets = s.resets + 1 := rfl

end Sys2Proof.Machine
end

