-- ==== Sys2Proof/Laws/Ops.lean ====
section
/-! SUPPORT. What each shared operation does, said once: the contract test, byte reads and writes, FILL, `absorb`, the pad loops,
`finalize`, and the run of a command list. Proofs cite these and unfold nothing. -/

namespace Sys2Proof.Machine

/-! ### The contract test -/

theorem require_eq_next {c : Bool} {r : Refusal} {k : Host.Outcome State Fault Refusal} {t : State} :
    require c r k = .next t ↔ c = true ∧ k = .next t := by
  cases c <;> simp [require]

theorem require_eq_refused {c : Bool} {r r' : Refusal} {k : Host.Outcome State Fault Refusal} :
    require c r k = .refused r' ↔ c = false ∧ r = r' ∨ c = true ∧ k = .refused r' := by
  cases c <;> simp [require]

@[simp] theorem require_true (r : Refusal) (k : Host.Outcome State Fault Refusal) : require true r k = k := rfl

@[simp] theorem require_false (r : Refusal) (k : Host.Outcome State Fault Refusal) :
    require false r k = .refused r := rfl

@[simp] theorem isIdle_eq (s : State) : s.isIdle = true ↔ s.seq = .idle := by simp [State.isIdle]

@[simp] theorem takesMessage_eq (s : State) : s.takesMessage = true ↔ s.seq = .idle ∨ s.seq = .inner := by
  simp [State.takesMessage]

@[simp] theorem isKeying_eq (s : State) : s.isKeying = true ↔ s.seq = .keying := by simp [State.isKeying]

@[simp] theorem isInner_eq (s : State) : s.isInner = true ↔ s.seq = .inner := by simp [State.isInner]

/-! ### Bytes -/

@[simp] theorem readByte_buf (s : State) (j : Nat) : s.readByte .buf j = s.buf[j]? := rfl

@[simp] theorem readByte_key (s : State) (j : Nat) : s.readByte .key j = s.key[j]? := rfl

@[simp] theorem readByte_dout (s : State) (j : Nat) : s.readByte .dout j = s.dout[j]? := rfl

theorem readByte_setBuf_self (s : State) {j : Nat} (hj : j < 64) (v : Byte) :
    (s.setBuf j v).readByte .buf j = some v := by
  simp [hj]

theorem readByte_setBuf_other (s : State) {j k : Nat} (h : j ≠ k) (v : Byte) :
    (s.setBuf j v).readByte .buf k = s.readByte .buf k := by
  simp [h]

theorem readByte_setKey_self (s : State) {j : Nat} (hj : j < 64) (v : Byte) :
    (s.setKey j v).readByte .key j = some v := by
  simp [hj]

theorem readByte_setKey_other (s : State) {j k : Nat} (h : j ≠ k) (v : Byte) :
    (s.setKey j v).readByte .key k = s.readByte .key k := by
  simp [h]

/-! ### FILL -/

theorem fill_toNat (s : State) : s.fill.toNat = s.bitcnt.toNat / 8 % 64 := by
  simp [State.fill, BitVec.extractLsb'_toNat, Nat.shiftRight_eq_div_pow]

theorem fill_lt (s : State) : s.fill.toNat < 64 := s.fill.isLt

/-- Counting a byte moves FILL up by one, 63 going to 0 (R25). -/
theorem fill_countByte_toNat (s : State) : (countByte s).fill.toNat = (s.fill.toNat + 1) % 64 := by
  have h8 : (8 : BitVec 64).toNat = 8 := rfl
  simp only [fill_toNat, countByte_bitcnt, BitVec.toNat_add, h8]
  omega

theorem fill_countByte_eq_zero (s : State) : (countByte s).fill = 0#6 ↔ s.fill.toNat = 63 := by
  have h := fill_countByte_toNat s
  have := fill_lt s
  rw [← BitVec.toNat_inj, h]
  simp
  omega

@[simp] theorem fill_setBuf (s : State) (j : Nat) (v : Byte) : (s.setBuf j v).fill = s.fill := rfl

/-! ### absorb -/

/-- Every byte but the last of a block: stored and counted. -/
theorem absorb_not_full (b : Byte) {s : State} (h : s.fill.toNat ≠ 63) :
    absorb b s = countByte (s.setBuf s.fill.toNat b) := by
  have : (countByte (s.setBuf s.fill.toNat b)).fill ≠ 0#6 := by rwa [Ne, fill_countByte_eq_zero]
  exact if_neg this

/-- The last byte of a block: stored, counted, and the block is transformed. -/
theorem absorb_full (b : Byte) {s : State} (h : s.fill.toNat = 63) :
    absorb b s = transform (countByte (s.setBuf 63 b)) := by
  have : (countByte (s.setBuf s.fill.toNat b)).fill = 0#6 := by rwa [fill_countByte_eq_zero]
  rw [← h]
  exact if_pos this

theorem absorb_cases (b : Byte) (s : State) :
    s.fill.toNat ≠ 63 ∧ absorb b s = countByte (s.setBuf s.fill.toNat b) ∨
    s.fill.toNat = 63 ∧ absorb b s = transform (countByte (s.setBuf 63 b)) := by
  by_cases h : s.fill.toNat = 63
  · exact .inr ⟨h, absorb_full b h⟩
  · exact .inl ⟨h, absorb_not_full b h⟩

@[simp] theorem absorbAll_nil (s : State) : absorbAll [] s = s := rfl

@[simp] theorem absorbAll_cons (b : Byte) (bs : List Byte) (s : State) :
    absorbAll (b :: bs) s = absorbAll bs (absorb b s) := rfl

theorem absorbAll_append (bs cs : List Byte) (s : State) :
    absorbAll (bs ++ cs) s = absorbAll cs (absorbAll bs s) := by
  simp [absorbAll]

@[simp] theorem absorb_bitcnt (b : Byte) (s : State) : (absorb b s).bitcnt = s.bitcnt + 8 := by
  rcases absorb_cases b s with ⟨_, h⟩ | ⟨_, h⟩ <;> simp [h]

@[simp] theorem absorb_key (b : Byte) (s : State) : (absorb b s).key = s.key := by
  rcases absorb_cases b s with ⟨_, h⟩ | ⟨_, h⟩ <;> simp [h]

@[simp] theorem absorb_klen (b : Byte) (s : State) : (absorb b s).klen = s.klen := by
  rcases absorb_cases b s with ⟨_, h⟩ | ⟨_, h⟩ <;> simp [h]

@[simp] theorem absorb_dout (b : Byte) (s : State) : (absorb b s).dout = s.dout := by
  rcases absorb_cases b s with ⟨_, h⟩ | ⟨_, h⟩ <;> simp [h]

@[simp] theorem absorb_hactive (b : Byte) (s : State) : (absorb b s).hactive = s.hactive := by
  rcases absorb_cases b s with ⟨_, h⟩ | ⟨_, h⟩ <;> simp [h]

@[simp] theorem absorb_dvalid (b : Byte) (s : State) : (absorb b s).dvalid = s.dvalid := by
  rcases absorb_cases b s with ⟨_, h⟩ | ⟨_, h⟩ <;> simp [h]

@[simp] theorem absorb_kvalid (b : Byte) (s : State) : (absorb b s).kvalid = s.kvalid := by
  rcases absorb_cases b s with ⟨_, h⟩ | ⟨_, h⟩ <;> simp [h]

@[simp] theorem absorb_seq (b : Byte) (s : State) : (absorb b s).seq = s.seq := by
  rcases absorb_cases b s with ⟨_, h⟩ | ⟨_, h⟩ <;> simp [h]

@[simp] theorem absorb_port (b : Byte) (s : State) : (absorb b s).port = s.port := by
  rcases absorb_cases b s with ⟨_, h⟩ | ⟨_, h⟩ <;> simp [h]

@[simp] theorem absorb_rsp (b : Byte) (s : State) : (absorb b s).rsp = s.rsp := by
  rcases absorb_cases b s with ⟨_, h⟩ | ⟨_, h⟩ <;> simp [h]

@[simp] theorem absorb_resets (b : Byte) (s : State) : (absorb b s).resets = s.resets := by
  rcases absorb_cases b s with ⟨_, h⟩ | ⟨_, h⟩ <;> simp [h]

@[simp] theorem absorbAll_key (bs : List Byte) (s : State) : (absorbAll bs s).key = s.key := by
  induction bs generalizing s with
  | nil => rfl
  | cons b bs ih => simp [ih]

@[simp] theorem absorbAll_klen (bs : List Byte) (s : State) : (absorbAll bs s).klen = s.klen := by
  induction bs generalizing s with
  | nil => rfl
  | cons b bs ih => simp [ih]

@[simp] theorem absorbAll_dout (bs : List Byte) (s : State) : (absorbAll bs s).dout = s.dout := by
  induction bs generalizing s with
  | nil => rfl
  | cons b bs ih => simp [ih]

@[simp] theorem absorbAll_hactive (bs : List Byte) (s : State) : (absorbAll bs s).hactive = s.hactive := by
  induction bs generalizing s with
  | nil => rfl
  | cons b bs ih => simp [ih]

@[simp] theorem absorbAll_dvalid (bs : List Byte) (s : State) : (absorbAll bs s).dvalid = s.dvalid := by
  induction bs generalizing s with
  | nil => rfl
  | cons b bs ih => simp [ih]

@[simp] theorem absorbAll_kvalid (bs : List Byte) (s : State) : (absorbAll bs s).kvalid = s.kvalid := by
  induction bs generalizing s with
  | nil => rfl
  | cons b bs ih => simp [ih]

@[simp] theorem absorbAll_seq (bs : List Byte) (s : State) : (absorbAll bs s).seq = s.seq := by
  induction bs generalizing s with
  | nil => rfl
  | cons b bs ih => simp [ih]

@[simp] theorem absorbAll_port (bs : List Byte) (s : State) : (absorbAll bs s).port = s.port := by
  induction bs generalizing s with
  | nil => rfl
  | cons b bs ih => simp [ih]

@[simp] theorem absorbAll_rsp (bs : List Byte) (s : State) : (absorbAll bs s).rsp = s.rsp := by
  induction bs generalizing s with
  | nil => rfl
  | cons b bs ih => simp [ih]

@[simp] theorem absorbAll_resets (bs : List Byte) (s : State) : (absorbAll bs s).resets = s.resets := by
  induction bs generalizing s with
  | nil => rfl
  | cons b bs ih => simp [ih]

/-! ### The pad loops -/

@[simp] theorem getElem_zeroRange {n : Nat} (lo hi : Nat) (a : Vector Byte n) {j : Nat} (hj : j < n) :
    (zeroRange lo hi a)[j] = if lo ≤ j ∧ j < hi then 0 else a[j] := by
  simp [zeroRange]

@[simp] theorem getElem_putLength (L : BitVec 64) (a : Vector Byte 64) {j : Nat} (hj : j < 64) :
    (putLength L a)[j] = if 56 ≤ j then byte64 L (j - 56) else a[j] := by
  simp [putLength]

/-! ### finalize -/

/-- FILL at most 55 at entry: one last block and one transform. -/
theorem finalize_short {s : State} (h : s.fill.toNat ≤ 55) :
    finalize s = transform
      { s with buf := putLength s.bitcnt (zeroRange (s.fill.toNat + 1) 56 (s.buf.setIfInBounds s.fill.toNat 0x80)) } := by
  have : ¬ 56 < s.fill.toNat + 1 := by omega
  simp [finalize, padMark, padLength, this, State.setBuf]

/-- FILL 56 or more at entry: the block is zeroed to its end and transformed, then a block of zeros and the length. -/
theorem finalize_long {s : State} (h : 56 ≤ s.fill.toNat) :
    finalize s =
      let full := zeroRange (s.fill.toNat + 1) 64 (s.buf.setIfInBounds s.fill.toNat 0x80)
      transform { s with
        h := compress s.h full
        buf := putLength s.bitcnt (zeroRange 0 56 full) } := by
  have : 56 < s.fill.toNat + 1 := by omega
  simp [finalize, padMark, padLength, this, State.setBuf, transform]

theorem finalize_cases (s : State) : ∃ h b, finalize s = { s with h := h, buf := b } := by
  by_cases hf : s.fill.toNat ≤ 55
  · exact ⟨_, _, finalize_short hf⟩
  · exact ⟨_, _, finalize_long (by omega)⟩

@[simp] theorem finalize_bitcnt (s : State) : (finalize s).bitcnt = s.bitcnt := by
  obtain ⟨h, b, e⟩ := finalize_cases s
  rw [e]

@[simp] theorem finalize_key (s : State) : (finalize s).key = s.key := by
  obtain ⟨h, b, e⟩ := finalize_cases s
  rw [e]

@[simp] theorem finalize_klen (s : State) : (finalize s).klen = s.klen := by
  obtain ⟨h, b, e⟩ := finalize_cases s
  rw [e]

@[simp] theorem finalize_dout (s : State) : (finalize s).dout = s.dout := by
  obtain ⟨h, b, e⟩ := finalize_cases s
  rw [e]

@[simp] theorem finalize_hactive (s : State) : (finalize s).hactive = s.hactive := by
  obtain ⟨h, b, e⟩ := finalize_cases s
  rw [e]

@[simp] theorem finalize_dvalid (s : State) : (finalize s).dvalid = s.dvalid := by
  obtain ⟨h, b, e⟩ := finalize_cases s
  rw [e]

@[simp] theorem finalize_kvalid (s : State) : (finalize s).kvalid = s.kvalid := by
  obtain ⟨h, b, e⟩ := finalize_cases s
  rw [e]

@[simp] theorem finalize_seq (s : State) : (finalize s).seq = s.seq := by
  obtain ⟨h, b, e⟩ := finalize_cases s
  rw [e]

@[simp] theorem finalize_port (s : State) : (finalize s).port = s.port := by
  obtain ⟨h, b, e⟩ := finalize_cases s
  rw [e]

@[simp] theorem finalize_rsp (s : State) : (finalize s).rsp = s.rsp := by
  obtain ⟨h, b, e⟩ := finalize_cases s
  rw [e]

@[simp] theorem finalize_resets (s : State) : (finalize s).resets = s.resets := by
  obtain ⟨h, b, e⟩ := finalize_cases s
  rw [e]

/-! ### Runs of commands -/

@[simp] theorem runCommands_nil (s : State) : runCommands [] s = .next s := rfl

theorem runCommands_cons_next {i : Instr} {s t : State} (h : exec i s = .next t) (rest : List Instr) :
    runCommands (i :: rest) s = runCommands rest t := by
  simp [runCommands, h]

theorem runCommands_cons_refused {i : Instr} {s : State} {r : Refusal} (h : exec i s = .refused r)
    (rest : List Instr) : runCommands (i :: rest) s = .refused r := by
  simp [runCommands, h]

theorem runCommands_append_next {a : List Instr} {s t : State} (h : runCommands a s = .next t) (b : List Instr) :
    runCommands (a ++ b) s = runCommands b t := by
  induction a generalizing s with
  | nil => simp_all
  | cons i rest ih =>
    cases hi : exec i s with
    | next u => rw [List.cons_append, runCommands_cons_next hi]; exact ih (by rwa [runCommands_cons_next hi] at h)
    | fault f => cases f
    | refused r => rw [runCommands_cons_refused hi] at h; cases h

/-! ### Steps -/

theorem step_idle {s : State} (h : s.port = []) : step s = .next s := by
  simp [step, h]

theorem step_reset {s : State} {rest : List PortEvent} (h : s.port = .reset :: rest) :
    step s = .next (applyReset { s with port := rest }) := by
  simp [step, h]

theorem step_command {s : State} {w : CommandWord} {rest : List PortEvent} {i : Instr}
    (h : s.port = .command w :: rest) (hd : decode w = .ok i) : step s = exec i { s with port := rest } := by
  simp [step, h, acceptWord, hd]

theorem step_reserved {s : State} {w : CommandWord} {rest : List PortEvent} {e : Reserved}
    (h : s.port = .command w :: rest) (hd : decode w = .error e) : step s = .refused (.reservedEncoding w) := by
  simp [step, h, acceptWord, hd]

/-- A command cut short whose contract allows it: the reset event, whatever it would have done. -/
theorem step_resetDuring {s t : State} {w : CommandWord} {rest : List PortEvent} {i : Instr}
    (h : s.port = .resetDuring w :: rest) (hd : decode w = .ok i) (hi : exec i { s with port := rest } = .next t) :
    step s = .next (applyReset { s with port := rest }) := by
  simp [step, h, cutShort, acceptWord, hd, hi]

theorem step_resetDuring_refused {s : State} {w : CommandWord} {rest : List PortEvent} {i : Instr} {r : Refusal}
    (h : s.port = .resetDuring w :: rest) (hd : decode w = .ok i) (hi : exec i { s with port := rest } = .refused r) :
    step s = .refused r := by
  simp [step, h, cutShort, acceptWord, hd, hi]

theorem step_resetDuring_reserved {s : State} {w : CommandWord} {rest : List PortEvent} {e : Reserved}
    (h : s.port = .resetDuring w :: rest) (hd : decode w = .error e) : step s = .refused (.reservedEncoding w) := by
  simp [step, h, cutShort, acceptWord, hd]

end Sys2Proof.Machine
end

