-- ==== Sys2Proof/Laws/Hash.lean ====
section
/-! SUPPORT. The hash layer against its definition: the fold over blocks, absorbing a string, and what `finalize` answers. -/

namespace Sys2Proof.Machine

/-! ### Blocks -/

@[simp] theorem getElem_blockAt (bytes : List Byte) (i : Nat) {j : Nat} (hj : j < 64) :
    (blockAt bytes i)[j] = bytes.getD (64 * i + j) 0 := by
  simp [blockAt]

theorem blocks_length (bytes : List Byte) : (blocks bytes).length = bytes.length / 64 := by
  simp [blocks]

theorem blockAt_append_left {a b : List Byte} {i : Nat} (h : 64 * i + 64 ≤ a.length) :
    blockAt (a ++ b) i = blockAt a i := by
  refine Vector.ext fun j hj => ?_
  simp only [getElem_blockAt, List.getD_eq_getElem?_getD]
  rw [List.getElem?_append_left (by omega)]

theorem blockAt_append_right {a b : List Byte} {q i : Nat} (h : a.length = 64 * q) :
    blockAt (a ++ b) (q + i) = blockAt b i := by
  refine Vector.ext fun j hj => ?_
  simp only [getElem_blockAt, List.getD_eq_getElem?_getD]
  rw [List.getElem?_append_right (by omega)]
  congr 2
  omega

/-- The blocks of a string that starts with whole blocks. -/
theorem blocks_append {a b : List Byte} (h : a.length % 64 = 0) : blocks (a ++ b) = blocks a ++ blocks b := by
  have hq : a.length = 64 * (a.length / 64) := by omega
  have hn : (a ++ b).length / 64 = a.length / 64 + b.length / 64 := by rw [List.length_append]; omega
  rw [blocks, hn, List.range_add, List.map_append, List.map_map]
  have hl : (List.range (a.length / 64)).map (blockAt (a ++ b)) = blocks a := by
    refine List.map_congr_left fun i hi => blockAt_append_left ?_
    have := List.mem_range.mp hi
    omega
  have hr : (List.range (b.length / 64)).map (blockAt (a ++ b) ∘ fun i => a.length / 64 + i) = blocks b :=
    List.map_congr_left fun i _ => blockAt_append_right hq
  rw [hl, hr]

theorem compressAll_append (h : Vector Word 8) {a b : List Byte} (ha : a.length % 64 = 0) :
    compressAll h (a ++ b) = compressAll (compressAll h a) b := by
  simp [compressAll, blocks_append ha]

theorem compressAll_short (h : Vector Word 8) {a : List Byte} (ha : a.length < 64) : compressAll h a = h := by
  have : a.length / 64 = 0 := by omega
  simp [compressAll, blocks, this]

theorem compressAll_block (h : Vector Word 8) {a : List Byte} (ha : a.length = 64) :
    compressAll h a = compress h (blockAt a 0) := by
  simp [compressAll, blocks, ha]

/-- The fold sees the whole blocks only. -/
theorem compressAll_whole (h : Vector Word 8) (a : List Byte) :
    compressAll h a = compressAll h (a.take (64 * (a.length / 64))) := by
  have hl : (a.take (64 * (a.length / 64))).length % 64 = 0 := by rw [List.length_take]; omega
  conv => lhs; rw [← List.take_append_drop (64 * (a.length / 64)) a]
  rw [compressAll_append h hl, compressAll_short]
  rw [List.length_drop]; omega

/-! ### Absorbing a string -/

/-- What a hash state that started from `h0` with `m` absorbed since looks like. -/
structure Holds (h0 : Vector Word 8) (m : List Byte) (s : State) : Prop where
  folded : s.h = compressAll h0 m
  filled : s.fill.toNat = m.length % 64
  pending : pendingBytes s = m.drop (64 * (m.length / 64))

theorem pendingBytes_length (s : State) : (pendingBytes s).length = s.fill.toNat := by
  have := fill_lt s
  simp [pendingBytes]; omega

/-- Every state holds its own pending bytes over its own `H`. -/
theorem holds_self (s : State) : Holds s.h (pendingBytes s) s := by
  have hl := pendingBytes_length s
  have := fill_lt s
  refine ⟨(compressAll_short _ (by omega)).symm, by omega, ?_⟩
  have : (pendingBytes s).length / 64 = 0 := by omega
  simp [this]

theorem holds_initHash (s : State) : Holds IV [] (initHash s) :=
  ⟨(compressAll_short IV (a := []) (by decide)).symm, by simp [State.fill], by simp [pendingBytes, State.fill]⟩

theorem pendingBytes_setBuf_fill (b : Byte) (s : State) :
    (s.setBuf s.fill.toNat b).buf.toList.take (s.fill.toNat + 1) = pendingBytes s ++ [b] := by
  have := fill_lt s
  refine List.ext_getElem? fun j => ?_
  rw [List.getElem?_append, pendingBytes_length]
  simp only [pendingBytes, List.getElem?_take, State.setBuf_buf, Vector.toList_setIfInBounds]
  by_cases h1 : j < s.fill.toNat
  · simp [h1, show j < s.fill.toNat + 1 by omega, show s.fill.toNat ≠ j by omega]
  · by_cases h2 : j = s.fill.toNat
    · subst h2; simp [List.getElem?_set]; omega
    · simp [h1, show ¬ j < s.fill.toNat + 1 by omega, show j - s.fill.toNat ≠ 0 by omega]

/-- One byte more (R123). -/
theorem Holds.absorb {h0 : Vector Word 8} {m : List Byte} {s : State} (hs : Holds h0 m s) (b : Byte) :
    Holds h0 (m ++ [b]) (absorb b s) := by
  have hm : m = m.take (64 * (m.length / 64)) ++ pendingBytes s := by
    rw [hs.pending, List.take_append_drop]
  have hl : (m.take (64 * (m.length / 64))).length % 64 = 0 := by rw [List.length_take]; omega
  have hw := compressAll_whole h0 m
  have hp := pendingBytes_length s
  have hf := hs.filled
  have hb := pendingBytes_setBuf_fill b s
  have hc := fill_countByte_toNat (s.setBuf s.fill.toNat b)
  rw [fill_setBuf] at hc
  have hfold : compressAll h0 (m ++ [b]) = compressAll s.h (pendingBytes s ++ [b]) := by
    conv => lhs; rw [hm, List.append_assoc]
    rw [compressAll_append h0 hl, ← hw, ← hs.folded]
  rcases absorb_cases b s with ⟨h, e⟩ | ⟨h, e⟩
  · have hq : (m.length + 1) / 64 = m.length / 64 := by omega
    refine ⟨?_, ?_, ?_⟩
    · rw [hfold, e, compressAll_short]
      · rfl
      · simp [hp]; omega
    · rw [e, hc, List.length_append]; simp; omega
    · rw [e, List.length_append]
      show List.take _ _ = _
      rw [hc, show (s.fill.toNat + 1) % 64 = s.fill.toNat + 1 by omega]
      rw [show (countByte (s.setBuf s.fill.toNat b)).buf = (s.setBuf s.fill.toNat b).buf from rfl, hb, hs.pending]
      simp only [List.length_singleton, hq]
      rw [List.drop_append_of_le_length (by omega)]
  · rw [h] at hb hc
    refine ⟨?_, ?_, ?_⟩
    · rw [hfold, e, compressAll_block _ (by simp [hp, h]), ← hb]
      show compress s.h (s.setBuf 63 b).buf = _
      refine congrArg (compress s.h) ?_
      refine Vector.ext fun j hj => ?_
      rw [getElem_blockAt, Nat.mul_zero, Nat.zero_add, List.getD_eq_getElem?_getD, List.getElem?_take, if_pos hj,
        Vector.getElem?_toList, Vector.getElem?_eq_getElem hj, Option.getD_some]
    · rw [e, show (transform (countByte (s.setBuf 63 b))).fill = (countByte (s.setBuf 63 b)).fill from rfl, hc, List.length_append]; simp; omega
    · rw [e]
      show List.take _ _ = _
      rw [show (transform (countByte (s.setBuf 63 b))).fill = (countByte (s.setBuf 63 b)).fill from rfl, hc]
      simp
      omega

theorem Holds.absorbAll {h0 : Vector Word 8} {m : List Byte} {s : State} (hs : Holds h0 m s) (bs : List Byte) :
    Holds h0 (m ++ bs) (absorbAll bs s) := by
  induction bs generalizing m s with
  | nil => simpa using hs
  | cons b bs ih => simpa using ih (hs.absorb b)

theorem absorbAll_bitcnt (bs : List Byte) (s : State) :
    (absorbAll bs s).bitcnt = BitVec.ofNat 64 (s.bitcnt.toNat + 8 * bs.length) := by
  induction bs generalizing s with
  | nil => simp
  | cons b bs ih =>
    rw [absorbAll_cons, ih]
    apply BitVec.eq_of_toNat_eq
    simp [BitVec.toNat_add]
    omega

/-! ### Finishing -/

theorem be64_length (L : BitVec 64) : (be64 L).length = 8 := by simp [be64]

theorem padding_length (n : Nat) (L : BitVec 64) : (padding n L).length = 9 + (119 - n % 64) % 64 := by
  simp [padding, be64_length]; omega

theorem padding_mod (n : Nat) (L : BitVec 64) : padding (n % 64) L = padding n L := by
  simp [padding]

/-- The byte at `j` of a string that ends in the padding. -/
theorem padded_getD (p : List Byte) (L : BitVec 64) (j : Nat) :
    (p ++ padding p.length L).getD j 0 =
      if j < p.length then p.getD j 0
      else if j = p.length then 0x80
      else if j < p.length + 1 + (119 - p.length % 64) % 64 then 0
      else if j < p.length + 9 + (119 - p.length % 64) % 64 then byte64 L (j - (p.length + 1 + (119 - p.length % 64) % 64))
      else 0 := by
  simp only [List.getD_eq_getElem?_getD, List.getElem?_append, padding]
  by_cases h1 : j < p.length
  · simp [h1]
  · by_cases h2 : j = p.length
    · simp [h2]
    · obtain ⟨k, hk⟩ : ∃ k, j - p.length = k + 1 := ⟨j - p.length - 1, by omega⟩
      simp only [h1, h2, if_false, hk, List.getElem?_cons_succ, List.getElem?_append, List.length_replicate]
      by_cases h3 : k < (119 - p.length % 64) % 64
      · simp [h3, show j < p.length + 1 + (119 - p.length % 64) % 64 by omega]
      · by_cases h4 : k - (119 - p.length % 64) % 64 < 8
        · have : j - (p.length + 1 + (119 - p.length % 64) % 64) = k - (119 - p.length % 64) % 64 := by omega
          simp [h3, be64, this, h4, show ¬ j < p.length + 1 + (119 - p.length % 64) % 64 by omega,
            show j < p.length + 9 + (119 - p.length % 64) % 64 by omega]
        · simp [h3, be64, h4, show ¬ j < p.length + 1 + (119 - p.length % 64) % 64 by omega,
            show ¬ j < p.length + 9 + (119 - p.length % 64) % 64 by omega]

theorem pendingBytes_getD (s : State) {j : Nat} (hj : j < s.fill.toNat) :
    (pendingBytes s).getD j 0 = s.buf[j]'(by have := fill_lt s; omega) := by
  have := fill_lt s
  have h' : s.fill.toNat ≤ 64 := by omega
  simp [pendingBytes, hj, List.getD_eq_getElem?_getD, show j < 64 by omega]

/-- `finalize()` gives the digest its definition names (R126, R52, R53). -/
theorem digestBytes_finalize (s : State) : digestBytes (finalize s).h = digestFrom s := by
  have hf := fill_lt s
  have hp := pendingBytes_length s
  refine congrArg digestBytes ?_
  have hg := padded_getD (pendingBytes s) s.bitcnt
  rw [hp] at hg
  by_cases h : s.fill.toNat ≤ 55
  · have hz : (119 - s.fill.toNat % 64) % 64 = 55 - s.fill.toNat := by omega
    rw [finalize_short h, compressAll_block _ (by rw [List.length_append, hp, padding_length]; omega)]
    rw [transform_h]
    refine congrArg (compress s.h) ?_
    refine Vector.ext fun j hj => ?_
    rw [getElem_blockAt, hg, hz]
    simp only [getElem_putLength _ _ hj, getElem_zeroRange _ _ _ hj, Vector.getElem_setIfInBounds hj]
    by_cases h1 : j < s.fill.toNat
    · simp only [h1, if_true, Nat.mul_zero, Nat.zero_add]
      rw [pendingBytes_getD s h1]
      rw [if_neg (by omega), if_neg (by omega), if_neg (by omega)]
    · by_cases h2 : j = s.fill.toNat
      · subst h2
        simp; omega
      · by_cases h3 : 56 ≤ j
        · have : j - (s.fill.toNat + 1 + (55 - s.fill.toNat)) = j - 56 := by omega
          simp only [h1, h2, h3, Nat.mul_zero, Nat.zero_add, if_true, if_false, this]
          rw [if_neg (by omega), if_pos (by omega)]
        · simp only [h1, h2, h3, Nat.mul_zero, Nat.zero_add, if_false]
          rw [if_pos (by omega), if_pos (by omega)]
  · have h' : 56 ≤ s.fill.toNat := by omega
    have hz : (119 - s.fill.toNat % 64) % 64 = 119 - s.fill.toNat := by omega
    have hl : (pendingBytes s ++ padding s.fill.toNat s.bitcnt).length = 128 := by
      rw [List.length_append, hp, padding_length]; omega
    have e : compressAll s.h (pendingBytes s ++ padding s.fill.toNat s.bitcnt) =
        compress (compress s.h (blockAt (pendingBytes s ++ padding s.fill.toNat s.bitcnt) 0))
          (blockAt (pendingBytes s ++ padding s.fill.toNat s.bitcnt) 1) := by
      simp [compressAll, blocks, hl, List.range_succ]
    rw [finalize_long h', e, transform_h]
    refine congr (congrArg compress ?_) ?_
    · refine congrArg (compress s.h) ?_
      refine Vector.ext fun j hj => ?_
      rw [getElem_blockAt, hg, hz]
      simp only [getElem_zeroRange _ _ _ hj, Vector.getElem_setIfInBounds hj]
      by_cases h1 : j < s.fill.toNat
      · simp only [h1, if_true, Nat.mul_zero, Nat.zero_add]
        rw [pendingBytes_getD s h1]
        rw [if_neg (by omega), if_neg (by omega)]
      · by_cases h2 : j = s.fill.toNat
        · subst h2
          simp
        · simp only [h1, h2, Nat.mul_zero, Nat.zero_add, if_false]
          rw [if_pos (by omega), if_pos (by omega)]
    · refine Vector.ext fun j hj => ?_
      rw [getElem_blockAt, hg, hz]
      simp only [getElem_putLength _ _ hj, getElem_zeroRange _ _ _ hj]
      have h1 : ¬ 64 * 1 + j < s.fill.toNat := by omega
      have h2 : ¬ 64 * 1 + j = s.fill.toNat := by omega
      by_cases h3 : 56 ≤ j
      · have : 64 * 1 + j - (s.fill.toNat + 1 + (119 - s.fill.toNat)) = j - 56 := by omega
        simp only [h1, h2, h3, if_true, if_false, this]
        rw [if_neg (by omega), if_pos (by omega)]
      · simp only [h1, h2, h3, if_false]
        rw [if_pos (by omega), if_pos (by omega)]

/-- The digest of a state that holds `m`: the padding counts from the length of `m`. -/
theorem Holds.digestFrom {h0 : Vector Word 8} {m : List Byte} {s : State} (hs : Holds h0 m s) :
    digestFrom s = digestBytes (compressAll h0 (m ++ padding m.length s.bitcnt)) := by
  have hl : (m.take (64 * (m.length / 64))).length % 64 = 0 := by rw [List.length_take]; omega
  have hm : m ++ padding m.length s.bitcnt =
      m.take (64 * (m.length / 64)) ++ (pendingBytes s ++ padding s.fill.toNat s.bitcnt) := by
    rw [hs.pending, hs.filled, padding_mod, ← List.append_assoc, List.take_append_drop]
  rw [hm, compressAll_append h0 hl, ← compressAll_whole, ← hs.folded]
  rfl

/-- The digest of a hash that was begun and given `m`. -/
theorem digestFrom_absorbAll (m : List Byte) (s : State) :
    digestFrom (absorbAll m (initHash s)) = sha256 m := by
  have h := (holds_initHash s).absorbAll m
  rw [List.nil_append] at h
  rw [h.digestFrom, absorbAll_bitcnt]
  simp [sha256, paddedStream]

end Sys2Proof.Machine
end

