-- ==== Sys2Proof/Laws/Hmac.lean ====
section
/-! SUPPORT. What the shared operations of the HMAC layer leave alone and write, field by field. -/

namespace Sys2Proof.Machine

@[simp] theorem beginInner_key (s : State) : (beginInner s).key = s.key := by simp [beginInner]

@[simp] theorem beginInner_klen (s : State) : (beginInner s).klen = s.klen := by simp [beginInner]

@[simp] theorem beginInner_dout (s : State) : (beginInner s).dout = s.dout := by simp [beginInner]

@[simp] theorem beginInner_dvalid (s : State) : (beginInner s).dvalid = s.dvalid := by simp [beginInner]

@[simp] theorem beginInner_kvalid (s : State) : (beginInner s).kvalid = s.kvalid := by simp [beginInner]

@[simp] theorem beginInner_port (s : State) : (beginInner s).port = s.port := by simp [beginInner]

@[simp] theorem beginInner_rsp (s : State) : (beginInner s).rsp = s.rsp := by simp [beginInner]

@[simp] theorem beginInner_resets (s : State) : (beginInner s).resets = s.resets := by simp [beginInner]

@[simp] theorem beginInner_hactive (s : State) : (beginInner s).hactive = true := by simp [beginInner]

@[simp] theorem beginInner_seq (s : State) : (beginInner s).seq = .inner := by simp [beginInner]

@[simp] theorem outerPass_key (inner : Vector Byte 32) (s : State) : (outerPass inner s).key = s.key := by
  simp [outerPass]

@[simp] theorem outerPass_klen (inner : Vector Byte 32) (s : State) : (outerPass inner s).klen = s.klen := by
  simp [outerPass]

@[simp] theorem outerPass_dout (inner : Vector Byte 32) (s : State) : (outerPass inner s).dout = s.dout := by
  simp [outerPass]

@[simp] theorem outerPass_dvalid (inner : Vector Byte 32) (s : State) : (outerPass inner s).dvalid = s.dvalid := by
  simp [outerPass]

@[simp] theorem outerPass_kvalid (inner : Vector Byte 32) (s : State) : (outerPass inner s).kvalid = s.kvalid := by
  simp [outerPass]

@[simp] theorem outerPass_port (inner : Vector Byte 32) (s : State) : (outerPass inner s).port = s.port := by
  simp [outerPass]

@[simp] theorem outerPass_rsp (inner : Vector Byte 32) (s : State) : (outerPass inner s).rsp = s.rsp := by
  simp [outerPass]

@[simp] theorem outerPass_resets (inner : Vector Byte 32) (s : State) : (outerPass inner s).resets = s.resets := by
  simp [outerPass]

theorem hashLongKey_cases (s : State) :
    s.klen = 65 ∧ hashLongKey s = { finalize s with key := digestKey (digestBytes (finalize s).h) } ∨
    s.klen ≠ 65 ∧ hashLongKey s = s := by
  by_cases h : s.klen = 65
  · exact .inl ⟨h, if_pos h⟩
  · exact .inr ⟨h, if_neg h⟩

@[simp] theorem hashLongKey_bitcnt (s : State) : (hashLongKey s).bitcnt = s.bitcnt := by
  rcases hashLongKey_cases s with ⟨_, h⟩ | ⟨_, h⟩ <;> simp [h]

@[simp] theorem hashLongKey_klen (s : State) : (hashLongKey s).klen = s.klen := by
  rcases hashLongKey_cases s with ⟨_, h⟩ | ⟨_, h⟩ <;> simp [h]

@[simp] theorem hashLongKey_dout (s : State) : (hashLongKey s).dout = s.dout := by
  rcases hashLongKey_cases s with ⟨_, h⟩ | ⟨_, h⟩ <;> simp [h]

@[simp] theorem hashLongKey_hactive (s : State) : (hashLongKey s).hactive = s.hactive := by
  rcases hashLongKey_cases s with ⟨_, h⟩ | ⟨_, h⟩ <;> simp [h]

@[simp] theorem hashLongKey_dvalid (s : State) : (hashLongKey s).dvalid = s.dvalid := by
  rcases hashLongKey_cases s with ⟨_, h⟩ | ⟨_, h⟩ <;> simp [h]

@[simp] theorem hashLongKey_kvalid (s : State) : (hashLongKey s).kvalid = s.kvalid := by
  rcases hashLongKey_cases s with ⟨_, h⟩ | ⟨_, h⟩ <;> simp [h]

@[simp] theorem hashLongKey_seq (s : State) : (hashLongKey s).seq = s.seq := by
  rcases hashLongKey_cases s with ⟨_, h⟩ | ⟨_, h⟩ <;> simp [h]

@[simp] theorem hashLongKey_port (s : State) : (hashLongKey s).port = s.port := by
  rcases hashLongKey_cases s with ⟨_, h⟩ | ⟨_, h⟩ <;> simp [h]

@[simp] theorem hashLongKey_rsp (s : State) : (hashLongKey s).rsp = s.rsp := by
  rcases hashLongKey_cases s with ⟨_, h⟩ | ⟨_, h⟩ <;> simp [h]

@[simp] theorem hashLongKey_resets (s : State) : (hashLongKey s).resets = s.resets := by
  rcases hashLongKey_cases s with ⟨_, h⟩ | ⟨_, h⟩ <;> simp [h]

@[simp] theorem storeSecretByte_h (b : Byte) (s : State) : (storeSecretByte b s).h = s.h := by
  simp only [storeSecretByte]
  split <;> split <;> rfl

@[simp] theorem storeSecretByte_buf (b : Byte) (s : State) : (storeSecretByte b s).buf = s.buf := by
  simp only [storeSecretByte]
  split <;> split <;> rfl

@[simp] theorem storeSecretByte_bitcnt (b : Byte) (s : State) : (storeSecretByte b s).bitcnt = s.bitcnt := by
  simp only [storeSecretByte]
  split <;> split <;> rfl

@[simp] theorem storeSecretByte_dout (b : Byte) (s : State) : (storeSecretByte b s).dout = s.dout := by
  simp only [storeSecretByte]
  split <;> split <;> rfl

@[simp] theorem storeSecretByte_hactive (b : Byte) (s : State) : (storeSecretByte b s).hactive = s.hactive := by
  simp only [storeSecretByte]
  split <;> split <;> rfl

@[simp] theorem storeSecretByte_dvalid (b : Byte) (s : State) : (storeSecretByte b s).dvalid = s.dvalid := by
  simp only [storeSecretByte]
  split <;> split <;> rfl

@[simp] theorem storeSecretByte_kvalid (b : Byte) (s : State) : (storeSecretByte b s).kvalid = s.kvalid := by
  simp only [storeSecretByte]
  split <;> split <;> rfl

@[simp] theorem storeSecretByte_seq (b : Byte) (s : State) : (storeSecretByte b s).seq = s.seq := by
  simp only [storeSecretByte]
  split <;> split <;> rfl

@[simp] theorem storeSecretByte_port (b : Byte) (s : State) : (storeSecretByte b s).port = s.port := by
  simp only [storeSecretByte]
  split <;> split <;> rfl

@[simp] theorem storeSecretByte_rsp (b : Byte) (s : State) : (storeSecretByte b s).rsp = s.rsp := by
  simp only [storeSecretByte]
  split <;> split <;> rfl

@[simp] theorem storeSecretByte_resets (b : Byte) (s : State) : (storeSecretByte b s).resets = s.resets := by
  simp only [storeSecretByte]
  split <;> split <;> rfl

@[simp] theorem getElem_digestKey (d : Vector Byte 32) {j : Nat} (hj : j < 64) :
    (digestKey d)[j] = if h : j < 32 then d[j] else 0 := by
  simp [digestKey]

@[simp] theorem pad_length (mask : Byte) (key : Vector Byte 64) : (pad mask key).length = 64 := by
  simp [pad]

theorem pad_getElem? (mask : Byte) (key : Vector Byte 64) {j : Nat} (hj : j < 64) :
    (pad mask key)[j]? = some (key[j] ^^^ mask) := by
  simp [pad, hj]

end Sys2Proof.Machine
end

