-- ==== Sys2Proof/Laws/Exec.lean ====
section
/-! SUPPORT. What a command and a step can do, said once: every next state with the contract that led to it; the shared store of a
secret byte and of a message byte read back; runs of `ABSORB` and of `KEYBYTE`. -/

namespace Sys2Proof.Machine

/-! ### Inversion -/

/-- Every way in which a command completes: the command, what its contract tested, the state it leaves. -/
theorem exec_next_cases {i : Instr} {s t : State} (h : exec i s = .next t) :
    (i = .init ∧ s.seq = .idle ∧ t = initHash s) ∨
    (∃ b, i = .absorb b ∧ (s.seq = .idle ∨ s.seq = .inner) ∧ s.hactive = true ∧ t = absorb b s) ∨
    (i = .final ∧ s.seq = .idle ∧ s.hactive = true ∧ t = deliver (digestBytes (finalize s).h) (finalize s)) ∨
    (∃ j, ∃ hj : j.toNat < 32, i = .rddig j ∧ s.dvalid = true ∧ t = respond s.dout[j.toNat] s) ∨
    (i = .keybegin ∧ s.seq = .idle ∧
      t = { initHash { s with kvalid := false, key := Vector.replicate 64 0, klen := 0 } with seq := .keying }) ∨
    (∃ b, i = .keybyte b ∧ s.seq = .keying ∧ t = absorb b (storeSecretByte b s)) ∨
    (i = .keyend ∧ s.seq = .keying ∧ t = { hashLongKey s with hactive := false, kvalid := true, seq := .idle }) ∨
    (i = .macbegin ∧ s.seq = .idle ∧ s.kvalid = true ∧ t = beginInner s) ∨
    (i = .macend ∧ s.seq = .inner ∧
      t = { deliver (digestBytes (outerPass (digestBytes (finalize s).h) (finalize s)).h)
              (outerPass (digestBytes (finalize s).h) (finalize s)) with seq := .idle }) ∨
    (i = .rdstat ∧ t = respond s.status s) := by
  cases i with
  | init =>
    simp only [exec, execInit, require_eq_next, isIdle_eq, Host.Outcome.next.injEq] at h
    simp [h]
  | absorb b =>
    simp only [exec, execAbsorb, require_eq_next, takesMessage_eq, Host.Outcome.next.injEq] at h
    simp [h]
  | final =>
    simp only [exec, execFinal, require_eq_next, isIdle_eq, Host.Outcome.next.injEq] at h
    simp [h]
  | rddig j =>
    simp only [exec, execRddig, State.digestOperand, readByte_dout] at h
    by_cases hj : j.toNat < 32
    · rw [Vector.getElem?_eq_getElem hj] at h
      simp only [require_eq_next, Host.Outcome.next.injEq] at h
      simp [h, hj]
    · rw [Vector.getElem?_eq_none (by omega)] at h
      cases h
  | keybegin =>
    simp only [exec, execKeybegin, require_eq_next, isIdle_eq, Host.Outcome.next.injEq] at h
    obtain ⟨h1, rfl⟩ := h
    exact .inr (.inr (.inr (.inr (.inl ⟨rfl, h1, rfl⟩))))
  | keybyte b =>
    simp only [exec, execKeybyte, require_eq_next, isKeying_eq, Host.Outcome.next.injEq] at h
    simp [h]
  | keyend =>
    simp only [exec, execKeyend, require_eq_next, isKeying_eq, Host.Outcome.next.injEq] at h
    obtain ⟨h1, rfl⟩ := h
    exact .inr (.inr (.inr (.inr (.inr (.inr (.inl ⟨rfl, h1, rfl⟩))))))
  | macbegin =>
    simp only [exec, execMacbegin, require_eq_next, isIdle_eq, Host.Outcome.next.injEq] at h
    simp [h]
  | macend =>
    simp only [exec, execMacend, require_eq_next, isInner_eq, Host.Outcome.next.injEq] at h
    obtain ⟨h1, rfl⟩ := h
    exact .inr (.inr (.inr (.inr (.inr (.inr (.inr (.inr (.inl ⟨rfl, h1, rfl⟩))))))))
  | rdstat =>
    simp only [exec, execRdstat, Host.Outcome.next.injEq] at h
    simp [h]

/-- An accepted word completes only as the command it decodes to. -/
theorem acceptWord_next {w : CommandWord} {s t : State} (h : acceptWord w s = .next t) :
    ∃ i, decode w = .ok i ∧ exec i s = .next t := by
  unfold acceptWord at h
  split at h
  · cases h
  · next i hd => exact ⟨i, hd, h⟩

/-- A word cut short completes only where the command it decodes to would, and then as the reset event. -/
theorem cutShort_next {w : CommandWord} {s t : State} (h : cutShort w s = .next t) :
    t = applyReset s ∧ ∃ i u, decode w = .ok i ∧ exec i s = .next u := by
  unfold cutShort at h
  split at h
  · next u hu =>
    cases h
    obtain ⟨i, hd, hi⟩ := acceptWord_next hu
    exact ⟨rfl, i, u, hd, hi⟩
  · cases h
  · cases h

/-- Every way in which a step completes. -/
theorem step_next_cases {s t : State} (h : step s = .next t) :
    (s.port = [] ∧ t = s) ∨
    (∃ rest, s.port = .reset :: rest ∧ t = applyReset { s with port := rest }) ∨
    (∃ w rest i u, s.port = .resetDuring w :: rest ∧ decode w = .ok i ∧ exec i { s with port := rest } = .next u ∧
      t = applyReset { s with port := rest }) ∨
    (∃ w rest i, s.port = .command w :: rest ∧ decode w = .ok i ∧ exec i { s with port := rest } = .next t) := by
  unfold step at h
  split at h
  · next hp => cases h; exact .inl ⟨hp, rfl⟩
  · next w rest hp =>
    obtain ⟨i, hd, hi⟩ := acceptWord_next h
    exact .inr (.inr (.inr ⟨w, rest, i, hp, hd, hi⟩))
  · next rest hp => cases h; exact .inr (.inl ⟨rest, hp, rfl⟩)
  · next w rest hp =>
    obtain ⟨ht, i, u, hd, hi⟩ := cutShort_next h
    exact .inr (.inr (.inl ⟨w, rest, i, u, hp, hd, hi, ht⟩))

/-! ### The stored bytes -/

/-- `absorb` writes one byte of `BUF`, at FILL. -/
theorem absorb_buf_getElem? (b : Byte) (s : State) (j : Nat) :
    (absorb b s).buf[j]? = if j = s.fill.toNat then some b else s.buf[j]? := by
  have hf := fill_lt s
  have hb : (absorb b s).buf = s.buf.setIfInBounds s.fill.toNat b := by
    rcases absorb_cases b s with ⟨_, e⟩ | ⟨h, e⟩
    · rw [e]; rfl
    · rw [e, h]; rfl
  rw [hb, Vector.getElem?_setIfInBounds]
  by_cases hj : s.fill.toNat = j
  · subst hj; simp [hf]
  · rw [if_neg hj, if_neg (fun e => hj e.symm)]

/-- The count of a secret's bytes saturates at 65 (R28). -/
theorem storeSecretByte_klen_toNat (b : Byte) (s : State) :
    (storeSecretByte b s).klen.toNat = if s.klen.toNat < 65 then s.klen.toNat + 1 else s.klen.toNat := by
  have e : (s.klen < 65) ↔ s.klen.toNat < 65 := by simp [BitVec.lt_def]
  simp only [storeSecretByte]
  split <;> split <;> simp_all [BitVec.toNat_add] <;> omega

/-- `KEY` takes a secret byte at the count, while there is room (R143). -/
theorem storeSecretByte_key_getElem? (b : Byte) (s : State) (j : Nat) :
    (storeSecretByte b s).key[j]? = if j < 64 ∧ j = s.klen.toNat then some b else s.key[j]? := by
  have e : (s.klen < 64) ↔ s.klen.toNat < 64 := by simp [BitVec.lt_def]
  have hk : (storeSecretByte b s).key = (if s.klen < 64 then s.setKey s.klen.toNat b else s).key := by
    simp only [storeSecretByte]
    split <;> split <;> rfl
  rw [hk]
  split
  · next h =>
    rw [e] at h
    simp only [State.setKey_key, Vector.getElem?_setIfInBounds]
    by_cases hj : s.klen.toNat = j
    · subst hj; simp [h]
    · rw [if_neg hj, if_neg (by omega)]
  · next h =>
    rw [e] at h
    rw [if_neg (by omega)]

/-! ### Runs of one command -/

/-- `ABSORB` over a string, where its contract holds, is `absorbAll`. -/
theorem runCommands_updateCommands {s : State} (h : s.hactive = true) (hs : s.seq = .idle ∨ s.seq = .inner)
    (bs : List Byte) : runCommands (updateCommands bs) s = .next (absorbAll bs s) := by
  induction bs generalizing s with
  | nil => rfl
  | cons b bs ih =>
    have e : exec (.absorb b) s = .next (absorb b s) := by simp [exec, execAbsorb, State.takesMessage, h, hs]
    have hc : updateCommands (b :: bs) = .absorb b :: updateCommands bs := rfl
    rw [hc, runCommands_cons_next e, ih (by simpa using h) (by simpa using hs), absorbAll_cons]

/-- `KEYBYTE` over a string, in `KEYING`. -/
theorem runCommands_keybytes {s : State} (hs : s.seq = .keying) (bs : List Byte) :
    runCommands (bs.map .keybyte) s = .next (bs.foldl (fun s b => absorb b (storeSecretByte b s)) s) := by
  induction bs generalizing s with
  | nil => rfl
  | cons b bs ih =>
    have e : exec (.keybyte b) s = .next (absorb b (storeSecretByte b s)) := by
      simp [exec, execKeybyte, State.isKeying, hs]
    rw [List.map_cons, runCommands_cons_next e, ih (by simpa using hs)]
    rfl

end Sys2Proof.Machine
end

