-- ==== Sys2Proof/Laws/PerInstr.lean ====
section
/-! SUPPORT. Family RowMatch, one lemma per command: the word of a well-formed command matches a row of the opcode map
(spec/30_encoding.md R73) and that row builds the command back from the word's immediate. -/

namespace Sys2Proof.Laws.RowMatch

/-- The word of `i` matches a row that builds `i`. -/
def Statement (i : Instr) : Prop :=
  i.WellFormed = true → ∃ r ∈ opcodeTable, encode i &&& r.mask = r.pattern ∧ r.build (immField (encode i)) = i

theorem init : Statement .init := fun _ =>
  ⟨⟨0x1000, 0xFFFF, fun _ => .init⟩, by simp [opcodeTable], by decide, rfl⟩

theorem absorb (b : Byte) : Statement (.absorb b) := fun _ =>
  ⟨⟨0x2000, 0xFF00, fun b => .absorb b⟩, by simp [opcodeTable], by revert b; decide +kernel, by simp [Instr.imm]⟩

theorem final : Statement .final := fun _ =>
  ⟨⟨0x3000, 0xFFFF, fun _ => .final⟩, by simp [opcodeTable], by decide, rfl⟩

theorem rddig (i : Byte) : Statement (.rddig i) := fun h =>
  ⟨⟨0x4000, 0xFFE0, fun i => .rddig i⟩, by simp [opcodeTable], by revert i; decide +kernel, by simp [Instr.imm]⟩

theorem keybegin : Statement .keybegin := fun _ =>
  ⟨⟨0x5000, 0xFFFF, fun _ => .keybegin⟩, by simp [opcodeTable], by decide, rfl⟩

theorem keybyte (b : Byte) : Statement (.keybyte b) := fun _ =>
  ⟨⟨0x6000, 0xFF00, fun b => .keybyte b⟩, by simp [opcodeTable], by revert b; decide +kernel, by simp [Instr.imm]⟩

theorem keyend : Statement .keyend := fun _ =>
  ⟨⟨0x7000, 0xFFFF, fun _ => .keyend⟩, by simp [opcodeTable], by decide, rfl⟩

theorem macbegin : Statement .macbegin := fun _ =>
  ⟨⟨0x8000, 0xFFFF, fun _ => .macbegin⟩, by simp [opcodeTable], by decide, rfl⟩

theorem macend : Statement .macend := fun _ =>
  ⟨⟨0x9000, 0xFFFF, fun _ => .macend⟩, by simp [opcodeTable], by decide, rfl⟩

theorem rdstat : Statement .rdstat := fun _ =>
  ⟨⟨0xA000, 0xFFFF, fun _ => .rdstat⟩, by simp [opcodeTable], by decide, rfl⟩

end Sys2Proof.Laws.RowMatch
end

