-- ==== Sys2Proof/Tests/Slice0.lean ====
section
/-! SUPPORT. Small tests, each against a word or a vector of the spec (its place is named), and for every statement with
hypotheses a concrete instance that meets them all. -/

namespace Sys2Proof.Tests

-- one kernel check at a time: without it each waiting test holds a thread and its stack
set_option Elab.async false

open Sys2Proof.Machine

/-! ### States and helpers -/

/-- A plain hash has been started. -/
def started : State := initHash State.reset

/-- A plain hash with `n` counted bits. -/
def counted (n : BitVec 64) : State := { started with bitcnt := n }

/-- A complete key, nothing in progress. -/
def keyed : State := { State.reset with kvalid := true }

/-- A key derivation in progress, `n` bytes counted. -/
def keying (n : BitVec 7) : State := { started with seq := .keying, klen := n }

/-- The inner pass of a MAC in progress. -/
def inMac : State := { started with seq := .inner, kvalid := true }

/-- A digest has been delivered. -/
def digested : State := { State.reset with dvalid := true, dout := Vector.ofFn fun j => BitVec.ofNat 8 (0xA0 + j.val) }

/-- Does a command complete with a state that passes a test. -/
def after (i : Instr) (s : State) (test : State → Bool) : Bool :=
  match exec i s with
  | .next t => test t
  | .fault f => nomatch f
  | .refused _ => false

/-- Does a step complete with a state that passes a test. -/
def stepAfter (s : State) (test : State → Bool) : Bool :=
  match step s with
  | .next t => test t
  | .fault f => nomatch f
  | .refused _ => false

/-- Does an outcome refuse with this reason. -/
def refuses (o : Host.Outcome State Fault Refusal) (r : Refusal) : Bool :=
  match o with
  | .next _ => false
  | .fault f => nomatch f
  | .refused r' => r' == r

/-- 64 bytes, the listed ones first, then zeros. -/
def block64 (bs : List Byte) : Vector Byte 64 := Vector.ofFn fun j => bs.getD j.val 0

/-! ### WellFormed refuses ill-formed operands (spec/30_encoding.md R72) -/

theorem test_wellformed_index_32_refused : Instr.WellFormed (.rddig 32) = false := by decide

theorem test_wellformed_index_255_refused : Instr.WellFormed (.rddig 255) = false := by decide

theorem test_wellformed_index_31_accepted : Instr.WellFormed (.rddig 31) = true := by decide

theorem test_exec_refuses_ill_formed_index :
    refuses (exec (.rddig 32) digested) (.reservedEncoding 0x4020) = true := by decide +kernel

/-! ### Words written out from the opcode map (spec/30_encoding.md R73, R74) -/

theorem test_word_init : decode 0b0001_0000_0000_0000 = .ok .init := by decide
theorem test_word_absorb : decode 0b0010_0000_1000_0001 = .ok (.absorb 0x81) := by decide
theorem test_word_final : decode 0b0011_0000_0000_0000 = .ok .final := by decide
theorem test_word_rddig : decode 0b0100_0000_0001_0110 = .ok (.rddig 22) := by decide
theorem test_word_keybegin : decode 0b0101_0000_0000_0000 = .ok .keybegin := by decide
theorem test_word_keybyte : decode 0b0110_0000_0000_1011 = .ok (.keybyte 0x0b) := by decide
theorem test_word_keyend : decode 0b0111_0000_0000_0000 = .ok .keyend := by decide
theorem test_word_macbegin : decode 0b1000_0000_0000_0000 = .ok .macbegin := by decide
theorem test_word_macend : decode 0b1001_0000_0000_0000 = .ok .macend := by decide
theorem test_word_rdstat : decode 0b1010_0000_0000_0000 = .ok .rdstat := by decide
theorem test_reserved_op : decode 0x0000 = .error .op ∧ decode 0xF000 = .error .op := by decide
theorem test_reserved_zero_field : decode 0x2161 = .error .zeroBits ∧ decode 0xA800 = .error .zeroBits := by decide
theorem test_reserved_immediate : decode 0x3001 = .error .immediate := by decide
theorem test_reserved_index : decode 0x4020 = .error .digestIndex := by decide

/-- `Encoding of a line: op * 4096 + imm8` (R79). -/
theorem test_encode_words :
    encode (.absorb 0x61) = 0x2061 ∧ encode (.rddig 31) = 0x401F ∧ encode .macend = 0x9000 := by decide

theorem test_table_word : decodeTableWord 16 0x6A5A = none ∧ decodeTableWord 16 0x605A = some (.keybyte 0x5A) := by decide

/-- Assembler forms of R79. -/
theorem test_assembler_character :
    Assembler.assemble (Software.ascii "ABSORB 'a' ; a comment") = some (.absorb 0x61) ∧
    Assembler.assemble (Software.ascii "RDDIG 31") = some (.rddig 31) ∧
    Assembler.assemble (Software.ascii "RDDIG 32") = none ∧
    Assembler.assemble (Software.ascii "KEYBYTE 0x0b") = some (.keybyte 0x0b) := by decide +kernel

/-! ### The six functions and compress (spec/95_test_vectors.md V10, V11) -/

theorem test_ssig : ssig0 0x12345678 = 0xe7fce6ee ∧ ssig1 0x12345678 = 0xa1f78649 := by decide

theorem test_bsig : bsig0 0xdeadbeef = 0xb62e25ac ∧ bsig1 0xdeadbeef = 0x345e14a3 := by decide

theorem test_ch_maj_truth_table :
    Ch 0xf0f0f0f0 0xcccccccc 0xaaaaaaaa = 0xcacacaca ∧ Maj 0xf0f0f0f0 0xcccccccc 0xaaaaaaaa = 0xe8e8e8e8 := by decide

theorem test_compress_abc :
    compress IV (block64 ([0x61, 0x62, 0x63, 0x80] ++ List.replicate 59 0 ++ [0x18])) =
      #v[0xba7816bf, 0x8f01cfea, 0x414140de, 0x5dae2223, 0xb00361a3, 0x96177a9c, 0xb410ff61, 0xf20015ad] := by
  decide +kernel

/-- R97: row `r`, column `k` of the printed table; `K[0]` first. -/
theorem test_round_constant_order :
    K[0] = 0x428a2f98 ∧ K[3] = 0xe9b5dba5 ∧ K[4] = 0x3956c25b ∧ K[62] = 0xbef9a3f7 ∧ K[63] = 0xc67178f2 := by decide +kernel

/-- The primes up to 311: the first 64 (R97). -/
def primes : List Nat := (List.range 312).filter fun n => 2 ≤ n && (List.range n).all fun d => d < 2 || n % d != 0

/-- With whole part `n`, is `w` the fractional part of the cube root of `p`, cut after 32 bits. -/
def isCubeRootPart (p n : Nat) (w : Word) : Bool :=
  let r := n * 0x100000000 + w.toNat
  let target := p * 0x1000000000000000000000000
  r * r * r ≤ target && target < (r + 1) * (r + 1) * (r + 1)

/-- With whole part `n`, is `w` the fractional part of the square root of `p`, cut after 32 bits. -/
def isSquareRootPart (p n : Nat) (w : Word) : Bool :=
  let r := n * 0x100000000 + w.toNat
  let target := p * 0x10000000000000000
  r * r ≤ target && target < (r + 1) * (r + 1)

theorem test_primes : primes.length = 64 := by decide +kernel

/-- R97: each `K[t]` is the first 32 bits of the fractional part of the cube root of the prime number `t`. -/
theorem test_round_constants_are_cube_roots :
    ((primes.zip K.toList).all fun pk => (List.range 7).any fun n => isCubeRootPart pk.1 n pk.2) = true := by decide +kernel

/-- R98: each `IV[i]` is the first 32 bits of the fractional part of the square root of the prime number `i`. -/
theorem test_initial_words_are_square_roots :
    ((primes.zip IV.toList).all fun pv => (List.range 5).any fun n => isSquareRootPart pv.1 n pv.2) = true := by
  decide +kernel

/-! ### Single commands (V20 to V22, V26, V30, V31, V50) -/

/-- V20, row 6: `INIT` with an old digest; STATUS 03. -/
theorem test_init_keeps_digest :
    after .init digested (fun t => t.h == IV && t.bitcnt == 0 && t.dout == digested.dout && t.status == 0x03) = true := by
  decide +kernel

/-- V20, row 3: 0x00 is data. -/
theorem test_absorb_zero_is_data :
    after (.absorb 0x00) (counted 8) (fun t => t.bitcnt == 0x10 && t.fill == 2 && t.h == IV) = true := by decide +kernel

/-- V22, row 2: carry into the high half, and the transform of `63 x 00, 61`. -/
theorem test_absorb_carries_and_transforms :
    after (.absorb 0x61) (counted 0x00000000fffffff8) (fun t => t.bitcnt == 0x0000000100000000 && t.fill == 0 && t.h ==
      #v[0x7524c4b7, 0xf4d65e9a, 0x3c5355a8, 0x16f7dbda, 0xd8cdc554, 0x04ffc4c7, 0xa2e427eb, 0xc60ecda6]) = true := by
  decide +kernel

/-- V1: `FINAL` directly after `INIT`; STATUS 02. -/
theorem test_final_empty_message :
    after .final started (fun t => t.status == 0x02 && Software.hex t.dout.toList ==
      Software.ascii "e3b0c44298fc1c149afbf4c8996fb92427ae41e4649b934ca495991b7852b855") = true := by decide +kernel

/-- V27, second case: FILL is bits 8:3 of the counter, and the eight length bytes in order. -/
theorem test_final_large_counter :
    after .final { counted 0x0123456789abcd18 with buf := block64 ([0x61, 0x62, 0x63] ++ List.replicate 61 0xee) }
      (fun t => Software.hex t.dout.toList ==
        Software.ascii "b2b993b700c446ec7217a151b27171659862522b49cc0aab6d89a38772ba558e") = true := by decide +kernel

/-- R160: the byte at the index, and nothing else. -/
theorem test_rddig_last_byte : after (.rddig 31) digested (fun t => t == { digested with rsp := [0xBF] }) = true := by decide +kernel

/-- R142: STATUS 09 after `KEYBEGIN` from reset; an old key is destroyed. -/
theorem test_keybegin_destroys_key :
    after .keybegin { keyed with key := block64 [0x55] } (fun t => t.key == block64 [] && t.status == 0x09) = true := by
  decide +kernel

/-- R143: the example. -/
theorem test_keybyte_first :
    after (.keybyte 0x0b) (keying 0) (fun t => t.key == block64 [0x0b] && t.klen == 1 && t.buf == block64 [0x0b] &&
      t.bitcnt == 8) = true := by decide +kernel

/-- R143: the 66th byte is not stored and leaves the count. -/
theorem test_keybyte_saturates :
    after (.keybyte 0x77) { keying 65 with bitcnt := 520 } (fun t => t.key == block64 [] && t.klen == 65 &&
      t.buf == block64 [0x00, 0x77]) = true := by decide +kernel

/-- R144: a short secret stays; STATUS 04. -/
theorem test_keyend_short_secret :
    after .keyend { keying 20 with key := block64 (List.replicate 20 0x0b), bitcnt := 160 }
      (fun t => t.key == block64 (List.replicate 20 0x0b) && t.status == 0x04) = true := by decide +kernel

/-- R144: with `KLEN = 65` the key is the digest of what was absorbed (here nothing: V1) and 32 zeros. -/
theorem test_keyend_long_secret :
    after .keyend (keying 65) (fun t => Software.hex t.key.toList == Software.ascii
      "e3b0c44298fc1c149afbf4c8996fb92427ae41e4649b934ca495991b7852b8550000000000000000000000000000000000000000000000000000000000000000"
      && t.dvalid == false) = true := by decide +kernel

/-- V32: `H` after `MACBEGIN` under the key 20 x 0b; STATUS 15. -/
theorem test_macbegin_inner_pad :
    after .macbegin { keyed with key := block64 (List.replicate 20 0x0b) } (fun t => t.status == 0x15 &&
      t.bitcnt == 0x200 && t.h ==
      #v[0x2bb21804, 0x23b95bf9, 0xb4e8258c, 0xfab5e654, 0x11f2921e, 0x4feb78ee, 0x9890e5fe, 0x64b78036]) = true := by
  decide +kernel

/-- V32: `MACEND` from the state the vector lists after "Hi There"; STATUS 06. -/
theorem test_macend_rfc4231_case_1 :
    after .macend { inMac with
        key := block64 (List.replicate 20 0x0b)
        h := #v[0x2bb21804, 0x23b95bf9, 0xb4e8258c, 0xfab5e654, 0x11f2921e, 0x4feb78ee, 0x9890e5fe, 0x64b78036]
        buf := block64 [0x48, 0x69, 0x20, 0x54, 0x68, 0x65, 0x72, 0x65]
        bitcnt := 0x240 }
      (fun t => t.status == 0x06 && Software.hex t.dout.toList ==
        Software.ascii "b0344c61d8db38535ca8afceaf0bf12b881dc200c9833da726e9376c2e32cff7") = true := by decide +kernel

/-- V31: the pads byte by byte. -/
theorem test_pad_bytes :
    (ipad (block64 [0x0b, 0xaa, 0x36]))[0]? = some 0x3d ∧ (ipad (block64 [0x0b, 0xaa, 0x36]))[1]? = some 0x9c ∧
    (opad (block64 [0x0b, 0xaa, 0x36]))[0]? = some 0x57 ∧ (opad (block64 [0x0b, 0xaa, 0x36]))[2]? = some 0x6a := by
  decide +kernel

/-- V50: STATUS 0b in `KEYING` with a digest valid, 17 in `INNER` with one. -/
theorem test_rdstat_keying :
    after .rdstat { keying 3 with dvalid := true } (fun t => t == { keying 3 with dvalid := true, rsp := [0x0b] }) = true := by
  decide +kernel

theorem test_rdstat_inner : after .rdstat { inMac with dvalid := true } (fun t => t.rsp == [0x17]) = true := by
  decide +kernel

/-! ### Contract violations (spec/60_exceptions.md R192, R193) -/

theorem test_final_in_keying_is_cv3 : refuses (exec .final (keying 0)) .interleaving = true := by decide +kernel
theorem test_macbegin_in_inner_is_cv3 : refuses (exec .macbegin inMac) .interleaving = true := by decide +kernel
theorem test_absorb_after_final_is_cv2 : refuses (exec (.absorb 0x61) digested) .hashNotActive = true := by decide +kernel
theorem test_macend_in_keying_is_cv5 : refuses (exec .macend (keying 0)) .outOfSequence = true := by decide +kernel

/-! ### Steps, reset, the port (R59, R78, R210, R211) -/

theorem test_fetch_word_init :
    stepAfter (State.reset.withFetchWord 16 0x1000) (fun t => t.h == IV && t.status == 0x01 && t.port == []) = true := by
  decide +kernel

theorem test_fetch_word_rdstat :
    stepAfter (State.reset.withFetchWord 16 0xA000) (fun t => t.rsp == [0x00]) = true := by decide +kernel

/-- R193: the word 0x3001 is CV1 whatever the state. -/
theorem test_fetch_reserved_word :
    refuses (step (started.withFetchWord 16 0x3001)) (.reservedEncoding 0x3001) = true := by decide +kernel

theorem test_reset_event_in_mac :
    stepAfter { inMac with dvalid := true, port := [.resetDuring 0x9000, .command 0xA000] }
      (fun t => t.status == 0x00 && t.port == [.command 0xA000]) = true := by rfl

/-- R191: `ABSORB` in `IDLE` with no hash active violates, also where reset cuts it short. -/
theorem test_violation_cut_short_refused :
    refuses (step { State.reset with port := [.resetDuring 0x2061] }) .hashNotActive = true := by decide +kernel

/-! ### Host software (spec/48_host_software.md R171, R173, R176, R177) -/

theorem test_hex_lowercase : Software.hex [0xb0, 0x34, 0x4c] = Software.ascii "b0344c" := by decide +kernel

theorem test_fold_leaves_other_letters : Software.fold (Software.ascii "AFgG09") = Software.ascii "afgG09" := by
  decide +kernel

theorem test_sensor_payload :
    Software.payload (Software.ascii "temperature") (Software.ascii "23.50") 1000 =
      Software.ascii "temperature:23.50|ts:1000" := by decide +kernel

theorem test_integer_text :
    Software.decInt (-7) = Software.ascii "-7" ∧ Software.decInt 0 = Software.ascii "0" := by decide +kernel

/-! ### The reference functions (V24, V30, R131) -/

theorem test_transform_counts :
    transformCount 0 = 1 ∧ transformCount 55 = 1 ∧ transformCount 56 = 2 ∧ transformCount 64 = 2 ∧
    transformCount 119 = 2 ∧ transformCount 120 = 3 ∧ transformCount 1000000 = 15626 := by decide

theorem test_normalize_trailing_zero : normalizeSecret [0x01] = normalizeSecret [0x01, 0x00] := by decide +kernel

/-! ### Witnesses: the hypotheses of each statement met together -/

/-- The invariants hold at the start of a plain hash. -/
theorem started_inv : BoundaryInv started := by
  constructor <;> simp [started, State.reset]

theorem keyed_inv : BoundaryInv keyed := by
  constructor <;> simp [keyed, State.reset]

theorem keying_inv : BoundaryInv (keying 0) := by
  constructor <;> simp +contextual [keying, started, State.reset, Vector.getElem?_replicate]

theorem inMac_inv : BoundaryInv inMac := by
  constructor <;> simp [inMac, started, State.reset]

theorem same_refl (s : State) : SameForHost s s := by
  constructor <;> simp

theorem witness_AssembleListingGivesCommandBack : Instr.WellFormed (.rddig 31) = true := by decide

theorem witness_StepRunsDecodedCommand :
    let s := { digested with port := [.command 0x401F, .reset] }
    s.port = .command 0x401F :: [.reset] ∧ decode 0x401F = .ok (.rddig 31) ∧ Instr.WellFormed (.rddig 31) = true ∧
      encode (.rddig 31) = 0x401F := by decide +kernel

theorem witness_ReservedWordRefusedFirst :
    ({ keying 0 with port := [.command 0x3001] } : State).port = .command 0x3001 :: [] ∧
      decode 0x3001 = .error .immediate := by decide +kernel

theorem witness_PortRunIsCommandRun :
    (∀ i ∈ [Instr.init, .absorb 0x61, .final], i.WellFormed = true) ∧
    ({ State.reset with port := asPort [.init, .absorb 0x61, .final] ++ [.reset] } : State).port =
      asPort [.init, .absorb 0x61, .final] ++ [.reset] := by decide +kernel

/-- Reset between commands; a legal `KEYEND` cut short; a reserved and a forbidden word cut short. -/
theorem witness_ResetEventClearsFlags :
    ({ inMac with port := [.reset] } : State).port = .reset :: [] ∧
    (∃ w i, ({ keying 5 with port := [.resetDuring 0x7000] } : State).port = .resetDuring w :: [] ∧ decode w = .ok i ∧
      ({ keying 5 with port := [.resetDuring 0x7000] } : State).seq ≠ .outer ∧
      violation i { keying 5 with port := [.resetDuring 0x7000] } = none) ∧
    decode 0x3001 = .error .immediate ∧
    (decode 0x3000 = .ok .final ∧ keyed.seq ≠ .outer ∧ violation .final keyed = some .hashNotActive) :=
  ⟨rfl, ⟨0x7000, .keyend, rfl, by decide, by decide, rfl⟩, by decide, by decide, by decide, rfl⟩

theorem witness_FirstCommandsAfterReset :
    State.reset.hactive = false ∧ State.reset.dvalid = false ∧ State.reset.kvalid = false ∧ State.reset.seq = .idle ∧
      (31 : Byte).toNat < 32 := by decide

/-- Both sides of the shift clauses: bits 28 and 29 for the shift by 3, bits 21 and 22 for the shift by 10, and bit 31. -/
theorem witness_MixingFunctionsBitByBit :
    28 < 32 ∧ 28 + 3 < 32 ∧ 29 < 32 ∧ ¬ 29 + 3 < 32 ∧ 21 < 32 ∧ 21 + 10 < 32 ∧ 22 < 32 ∧ ¬ 22 + 10 < 32 ∧ 31 < 32 := by
  decide

theorem witness_ChooseAndMajorityBitByBit : 0 < 32 ∧ 31 < 32 := by decide

theorem witness_ScheduleIsTheRecurrence : 15 < 16 ∧ 16 ≤ 16 ∧ 16 < 64 ∧ 16 ≤ 63 ∧ 63 < 64 := by decide

theorem witness_CompressIsRoundsThenAddBack : 0 < 64 ∧ 63 < 64 := by decide

theorem witness_DigestIsBigEndianWords : 0 < 8 ∧ 0 < 4 ∧ 7 < 8 ∧ 3 < 4 := by decide

theorem witness_InitStartsHash :
    (keying 0).seq ≠ .idle ∧ inMac.seq ≠ .idle ∧ started.seq = .idle ∧ exec .init started = .next (initHash started) := by
  refine ⟨by decide, by decide, by decide, rfl⟩

/-- One instance per clause: `KEYING`; `IDLE` and `INNER` without and with an active hash; FILL 62 and 63, and 63 at the wrap. -/
theorem witness_AbsorbStoresCountsTransforms :
    (keying 0).seq = .keying ∧
    (digested.seq = .idle ∧ digested.hactive = false) ∧
    (inMac.seq = .inner ∧ inMac.hactive = true) ∧
    ((counted 0x1f0).seq = .idle ∧ (counted 0x1f0).hactive = true ∧ (counted 0x1f0).bitcnt.toNat / 8 % 64 = 62) ∧
    ((counted 0xfffffffffffffff8).hactive = true ∧ (counted 0xfffffffffffffff8).bitcnt.toNat / 8 % 64 = 63) := by
  decide +kernel

/-- A carry between the halves and none. -/
theorem witness_BitCounterCarriesBetweenHalves :
    (∃ t, exec (.absorb 0x61) (counted 0x00000000fffffff8) = .next t ∧ t.bitcntLo.toNat < 8) ∧
    (∃ t, exec (.absorb 0x61) (counted 0x00000000fffffff0) = .next t ∧ ¬ t.bitcntLo.toNat < 8) ∧
    (counted 0x00000000fffffff8).bitcnt.toNat % 8 = 0 := by
  refine ⟨⟨absorb 0x61 (counted 0x00000000fffffff8), ?_, ?_⟩, ⟨absorb 0x61 (counted 0x00000000fffffff0), ?_, ?_⟩, by decide⟩
  · simp [exec, execAbsorb, counted, started, State.takesMessage, State.reset]
  · simp only [State.bitcntLo, absorb_bitcnt]; decide
  · simp [exec, execAbsorb, counted, started, State.takesMessage, State.reset]
  · simp only [State.bitcntLo, absorb_bitcnt]; decide

theorem witness_AbsorbExtendsAbsorbedMessage :
    (∃ t, exec .init State.reset = .next t) ∧ Absorbed [] started ∧ started.seq = .idle := by
  refine ⟨⟨_, rfl⟩, ⟨rfl, rfl, (compressAll_short IV (a := []) (by decide)).symm, ?_⟩, rfl⟩
  intro j hj
  exact absurd hj (Nat.not_lt_zero j)

theorem witness_UpdateAppendsBytes :
    (started.hactive = true ∧ started.seq = .idle) ∧ (inMac.hactive = true ∧ inMac.seq = .inner) := by decide +kernel

theorem witness_ReadsBetweenBytesChangeNothing :
    (∀ i ∈ [Instr.absorb 0x61, .rdstat, .absorb 0x62],
      (∃ b, i = .absorb b) ∨ (∃ j, i = .rddig j) ∨ i = .rdstat) ∧
    ∃ t, runCommands [.absorb 0x61, .rdstat, .absorb 0x62] started = .next t := by
  refine ⟨by simp, ?_⟩
  simp [runCommands, exec, execAbsorb, execRdstat, State.takesMessage, started, State.reset, respond]

theorem witness_FinalDeliversDigest :
    inMac.seq ≠ .idle ∧ (digested.seq = .idle ∧ digested.hactive = false) ∧
    (started.seq = .idle ∧ started.hactive = true) := by decide +kernel

/-- The zeros of the padding exist: message of 55 bytes (none), of 54 (one, at 55). -/
theorem witness_PaddedStreamShape :
    (paddedStream (List.replicate 54 0x61)).length = 64 ∧ 54 < 55 ∧
      55 + 8 < (paddedStream (List.replicate 54 0x61)).length := by decide +kernel

theorem witness_HashComputesSha256 :
    ([] : List Byte).length < 2 ^ 61 ∧ [(0x61 : Byte), 0x62, 0x63].length < 2 ^ 61 ∧ started.seq = .idle ∧
      keyed.seq = .idle := by decide +kernel

/-- Lengths 0, 63, 64, 65, one instance per clause. -/
theorem witness_NormalizeCornerCases :
    ([] : List Byte).length ≤ 64 ∧ (List.replicate 63 (0x01 : Byte)).length + 1 ≤ 64 ∧
    (List.replicate 64 (0x01 : Byte)).length = 64 ∧ 64 < (List.replicate 65 (0x01 : Byte)).length := by decide +kernel

theorem witness_KeybeginStartsKey : inMac.seq ≠ .idle ∧ keyed.seq = .idle := by decide +kernel

/-- Counts 63, 64 and 65: stored, not stored and counted, not stored and not counted. -/
theorem witness_KeybyteStoresCountsAbsorbs :
    keyed.seq ≠ .keying ∧ (keying 63).seq = .keying ∧ (keying 64).klen.toNat = 64 ∧ (keying 65).klen.toNat = 65 := by
  decide +kernel

theorem witness_KeyendFinishesKey :
    keyed.seq ≠ .keying ∧ ((keying 65).seq = .keying ∧ (keying 65).klen.toNat = 65) ∧
    ((keying 64).seq = .keying ∧ (keying 64).klen.toNat ≠ 65) := by decide +kernel

theorem witness_SetkeyNormalizesSecret :
    ([] : List Byte).length < 2 ^ 61 ∧ (List.replicate 65 (0xaa : Byte)).length < 2 ^ 61 ∧ State.reset.seq = .idle := by
  decide +kernel

theorem witness_MacbeginAbsorbsInnerPad :
    inMac.seq ≠ .idle ∧ (started.seq = .idle ∧ started.kvalid = false) ∧ (keyed.seq = .idle ∧ keyed.kvalid = true) := by
  decide +kernel

theorem witness_MacendDeliversOuterDigest : keyed.seq ≠ .inner ∧ inMac.seq = .inner := by decide +kernel

theorem witness_MacComputesHmac :
    ([] : List Byte).length + 64 < 2 ^ 61 ∧ [(0x48 : Byte), 0x69].length < 2 ^ 61 ∧ keyed.seq = .idle ∧
      keyed.kvalid = true := by decide +kernel

theorem witness_MacDoesNotDependOnEarlierUse : keyed.seq = .idle ∧ keyed.kvalid = true := by decide +kernel

theorem witness_RddigReturnsDigestByte :
    (Instr.init ≠ .final ∧ Instr.init ≠ .macend ∧ ∃ t, exec .init started = .next t) ∧
    32 ≤ (32 : Byte).toNat ∧ 32 ≤ (255 : Byte).toNat ∧ (31 : Byte).toNat < 32 ∧ started.dvalid = false ∧
      digested.dvalid = true := by
  refine ⟨⟨by decide, by decide, _, rfl⟩, by decide, by decide, by decide, by decide, by decide⟩

theorem witness_RddigestReturnsWholeDigest : digested.dvalid = true := by decide

/-- A state of each sequencer state that satisfies the invariants. -/
theorem witness_RdstatReturnsStatusLayout :
    (BoundaryInv (keying 0) ∧ (keying 0).seq = .keying) ∧ (BoundaryInv inMac ∧ inMac.seq = .inner) ∧
    (BoundaryInv keyed ∧ keyed.seq = .idle) :=
  ⟨⟨keying_inv, rfl⟩, ⟨inMac_inv, rfl⟩, ⟨keyed_inv, rfl⟩⟩

theorem witness_ViolationTable :
    (∀ i, decode 0x0000 ≠ .ok i) ∧ ({ started with port := [.command 0x0000] } : State).port = .command 0x0000 :: [] ∧
    started.seq ≠ .outer := by
  have h : decode 0x0000 = .error .op := by decide
  refine ⟨?_, rfl, by decide⟩
  intro i hi
  rw [h] at hi
  cases hi

theorem witness_SequencerFollowsTable :
    BoundaryInv started ∧ BoundaryInv (keying 0) ∧ BoundaryInv inMac ∧
    sequencerTable true false .idle (.rddig 31) = none ∧ Instr.WellFormed (.rddig 31) = true ∧ digested.dvalid = true ∧
    ({ inMac with port := [.reset] } : State).port = .reset :: [] :=
  ⟨started_inv, keying_inv, inMac_inv, rfl, by decide, rfl, rfl⟩

theorem witness_RegistersWrittenOnlyByTheirCommands :
    (∃ t, exec .init started = .next t) ∧ (∃ t, exec .keybegin keyed = .next t) ∧
    (∃ t, exec (.rddig 31) digested = .next t) ∧ Instr.init ∉ [Instr.keybegin, .keyend] ∧ digested.dvalid = true := by
  refine ⟨⟨_, rfl⟩, ⟨_, rfl⟩, ⟨_, rfl⟩, by decide, rfl⟩

theorem witness_CompleteKeyIsImmutable :
    BoundaryInv keyed ∧ keyed.kvalid = true ∧ Instr.init ≠ .keybegin ∧ ∃ t, exec .init keyed = .next t :=
  ⟨keyed_inv, rfl, by decide, _, rfl⟩

theorem witness_StepKeepsInvariants :
    BoundaryInv { keyed with port := [.command 0x1000] } ∧
    ∃ t, step { keyed with port := [.command 0x1000] } = .next t := by
  refine ⟨?_, initHash keyed, ?_⟩
  · constructor <;> simp [keyed, State.reset]
  · rw [step_command (i := .init) (rest := []) rfl (by decide)]
    rfl

theorem witness_ValuelessRegistersAreNeverSeen :
    BoundaryInv keyed ∧ BoundaryInv { keyed with h := IV, dout := digested.dout, klen := 9 } ∧
    SameForHost keyed { keyed with h := IV, dout := digested.dout, klen := 9 } := by
  refine ⟨keyed_inv, ?_, ?_⟩ <;> constructor <;> simp [keyed, State.reset]

theorem witness_ResetDataValuesNeverShow :
    State.reset.hactive = false ∧ State.reset.dvalid = false ∧ State.reset.kvalid = false ∧ State.reset.seq = .idle ∧
      State.reset.klen.toNat ≤ 65 ∧ ({ State.reset with klen := 65, h := IV } : State).klen.toNat ≤ 65 ∧
      State.reset.rsp = ({ State.reset with klen := 65, h := IV } : State).rsp := by decide +kernel

theorem witness_SecretsReachHostOnlyThroughDigests : Instr.macbegin ≠ .final ∧ Instr.macbegin ≠ .macend := by decide

theorem witness_SignIsHexOfMac :
    (Software.ascii "Hi There").length + 64 < 2 ^ 61 ∧ keyed.seq = .idle ∧ keyed.kvalid = true := by decide +kernel

/-- Reading digest bytes goes on while a digest is valid. -/
theorem rddig_list_runs (js : List Byte) (hj : ∀ j ∈ js, j.toNat < 32) {s : State} (hs : s.dvalid = true) :
    ∃ u, runCommands (js.map .rddig) s = .next u := by
  induction js generalizing s with
  | nil => exact ⟨s, rfl⟩
  | cons j js ih =>
    have hlt := hj j (by simp)
    have e : exec (.rddig j) s = .next (respond s.dout[j.toNat] s) := by
      simp [exec, execRddig, State.digestOperand, hlt, hs]
    rw [List.map_cons, runCommands_cons_next e]
    exact ih (fun k hk => hj k (by simp [hk])) hs

/-- A signature of every message exists under the zero key. -/
theorem sign_runs (m : Software.Text) : ∃ t x, Software.sign m keyed = .next (t, x) := by
  have h : ∃ u, runCommands (macCommands m ++ rddigestCommands) keyed = .next u := by
    have e : exec .macbegin keyed = .next (beginInner keyed) := rfl
    rw [macCommands, List.cons_append, runCommands_cons_next e, List.append_assoc,
      runCommands_append_next (runCommands_updateCommands (by simp) (.inr (by simp)) m)]
    obtain ⟨d, u, hu, hd⟩ : ∃ d u, exec .macend (absorbAll m (beginInner keyed)) = .next u ∧ u = { deliver d u with seq := .idle } := by
      simp [exec, execMacend, State.isInner, deliver]
    rw [List.singleton_append, runCommands_cons_next hu]
    have hr : rddigestCommands = ((List.range 32).map (BitVec.ofNat 8)).map .rddig := by simp [rddigestCommands]
    rw [hr]
    exact rddig_list_runs _ (by decide) (by rw [hd]; rfl)
  obtain ⟨u, h⟩ := h
  simp only [Software.sign, collect, h]
  exact ⟨_, _, rfl⟩

/-- Every clause's instance: a signature, a wrong length, and a character that is no digit. -/
theorem witness_VerifyFoldsCase :
    (∃ t x, Software.sign [] keyed = .next (t, x)) ∧ (Software.ascii "b0").length ≠ 64 ∧
    ∃ c ∈ Software.ascii "g0", Assembler.digitValue c = none :=
  ⟨sign_runs [], by decide +kernel, 0x67, by decide +kernel, by decide⟩

/-- A rendering as the rule asks: values are whole hundredths, and 23.5 is "23.50" (R176). -/
def hundredths : Software.FloatRendering Nat where
  denotes n := some ((n : Rat) / 100)
  fmt2 n := Software.dec (n / 100) ++ Software.ascii "." ++ Software.dec (n / 10 % 10) ++ Software.dec (n % 10)
  fmt2_fixed := by
    intro n h
    have hq : (n : Rat) = 2350 := by
      have := Option.some.inj h
      linarith
    have hn : n = 2350 := by exact_mod_cast hq
    subst hn
    decide +kernel

theorem witness_SensorMessageFormat :
    (∃ t x, Software.sign (Software.payload (Software.ascii "t") (hundredths.fmt2 2350) 0) keyed = .next (t, x)) ∧
    hundredths.denotes 2350 = some (47 / 2) ∧ (1000 : BitVec 10).toNat = 1000 ∧
    ∃ t x, Software.sign (Software.ascii "temperature:23.50|ts:1000") keyed = .next (t, x) := by
  refine ⟨sign_runs _, ?_, by decide, sign_runs _⟩
  simp only [hundredths]
  norm_num

end Sys2Proof.Tests
end

section
/-! PROOFS. The digest's bytes (spec/20_memory.md R53). -/
namespace Sys2Proof.Machine

/-- `digestBytes` at the index `4i+k` of R53: the division by 4 that `getElem_digestBytes` leaves gives back `i` and `k`. -/
theorem getElem_digestBytes_word (h : Vector Word 8) {i k : Nat} (hi : i < 8) (hk : k < 4) :
    (digestBytes h)[4 * i + k] = byte32 h[i] k := by
  have hdiv : (4 * i + k) / 4 = i := by omega
  have hmod : (4 * i + k) % 4 = k := by omega
  simp only [getElem_digestBytes, hdiv, hmod]

/-- Settles O16: index `4i+k` holds `byte32 h[i] k`, and that byte's value is the word's, shifted down by `24 - 8k`. -/
theorem digestIsBigEndianWords : Obligations.DigestIsBigEndianWords := by
  intro h i k hi hk
  rw [getElem_digestBytes_word h hi hk, byte32_toNat]

end Sys2Proof.Machine
end

section
/-! PROOFS. Decoding row by row (spec/30_encoding.md R73). -/
namespace Sys2Proof

/-- Two rows that both match `w` are the same row. -/
def OpcodeRow.AtMostOneMatches (w : CommandWord) (r q : OpcodeRow) : Prop :=
  w &&& r.mask = r.pattern → w &&& q.mask = q.pattern → r = q

theorem OpcodeRow.atMostOneMatches_symm (w : CommandWord) : Std.Symm (OpcodeRow.AtMostOneMatches w) :=
  ⟨fun _ _ h hq hr => (h hr hq).symm⟩

/-- At most one row of the table matches a word: the patterns of two that do would agree on the bits both masks test, against
`opcodeTable_disjoint`. -/
theorem opcodeTable_atMostOneMatches (w : CommandWord) :
    ∀ ⦃r⦄, r ∈ opcodeTable → ∀ ⦃q⦄, q ∈ opcodeTable → OpcodeRow.AtMostOneMatches w r q := by
  have hsymm := OpcodeRow.atMostOneMatches_symm w
  have hpair : opcodeTable.Pairwise (OpcodeRow.AtMostOneMatches w) := by
    refine opcodeTable_disjoint.imp fun {r q} hne hwr hwq => absurd ?_ hne
    calc r.pattern &&& (r.mask &&& q.mask) = w &&& (r.mask &&& q.mask) := by
          rw [← hwr, BitVec.and_assoc, ← BitVec.and_assoc r.mask, BitVec.and_self]
      _ = q.pattern &&& (r.mask &&& q.mask) := by
          rw [← hwq, BitVec.and_comm r.mask, BitVec.and_assoc, ← BitVec.and_assoc q.mask, BitVec.and_self]
  exact hpair.forall_of_forall fun _ _ _ _ => rfl

/-- `decode` answers a command exactly where some row matches the word and builds that command from its immediate. -/
theorem decode_eq_ok_iff {w : CommandWord} {i : Instr} :
    decode w = .ok i ↔ ∃ r ∈ opcodeTable, w &&& r.mask = r.pattern ∧ r.build (immField w) = i := by
  unfold decode
  split
  case h_1 r hfind =>
    have hr := List.mem_of_find?_eq_some hfind
    have hwr : w &&& r.mask = r.pattern := by simpa using List.find?_some hfind
    constructor
    · intro h
      exact ⟨r, hr, hwr, by simpa using h⟩
    · rintro ⟨q, hq, hwq, rfl⟩
      rw [opcodeTable_atMostOneMatches w hr hq hwr hwq]
  case h_2 hfind =>
    have hnone : ∀ r ∈ opcodeTable, w &&& r.mask ≠ r.pattern := by simpa using hfind
    constructor
    · intro h
      cases h
    · rintro ⟨r, hr, hwr, -⟩
      exact absurd hwr (hnone r hr)

/-- A byte operand is the low eight bits of the word. -/
theorem immField_eq_iff {w : CommandWord} {b : Byte} : immField w = b ↔ b.toNat = w.toNat % 256 := by
  rw [← BitVec.toNat_inj, eq_comm]
  simp [immField]

/-- The mask of the `RDDIG` row holds `imm8[7:5]` to zero, so the immediate is the low five bits. -/
theorem toNat_mod_256_of_rddig {w : CommandWord} (h : w &&& 0xFFE0 = 0x4000) : w.toNat % 256 = w.toNat % 32 := by
  have hbits : w.extractLsb' 5 3 = 0#3 := by
    calc w.extractLsb' 5 3 = (w &&& 0xFFE0).extractLsb' 5 3 := by
          rw [BitVec.extractLsb'_and, show BitVec.extractLsb' 5 3 (0xFFE0 : CommandWord) = BitVec.allOnes 3 by decide,
            BitVec.and_allOnes]
      _ = 0#3 := by rw [h]; decide
  have hzero : w.toNat / 32 % 8 = 0 := by
    simpa [Nat.shiftRight_eq_div_pow] using congrArg BitVec.toNat hbits
  omega

/-- Settles O2: `decode_eq_ok_iff` over the ten rows, of which only the command's own can build it; the operand is the row's
immediate. -/
theorem decodeFollowsOpcodeMap : Obligations.DecodeFollowsOpcodeMap := by
  intro w
  refine ⟨?init, ?absorb, ?final, ?rddig, ?keybegin, ?keybyte, ?keyend, ?macbegin, ?macend, ?rdstat⟩
  case absorb =>
    intro b
    simp [decode_eq_ok_iff, opcodeTable, immField_eq_iff]
  case keybyte =>
    intro b
    simp [decode_eq_ok_iff, opcodeTable, immField_eq_iff]
  case rddig =>
    intro j
    have hrow : decode w = .ok (.rddig j) ↔ w &&& 0xFFE0 = 0x4000 ∧ j.toNat = w.toNat % 256 := by
      simp [decode_eq_ok_iff, opcodeTable, immField_eq_iff]
    rw [hrow]
    exact and_congr_right fun h => by rw [toNat_mod_256_of_rddig h]
  all_goals simp [decode_eq_ok_iff, opcodeTable]

end Sys2Proof
end

section
/-! PROOFS. The message schedule at any index (spec/40_compression.md R99): each word is fixed when the prefix that ends with it is built. -/

namespace Sys2Proof.Machine

/-- The words of a schedule prefix stand in every longer one. -/
theorem getElem_schedulePrefix_of_le (block : Vector Byte 64) {k m t : Nat} (hkm : k ≤ m) (h : t < 16 + k) :
    (schedulePrefix block m)[t]'(by omega) = (schedulePrefix block k)[t] := by
  induction m, hkm using Nat.le_induction with
  | base => rfl
  | succ n hkn ih => rw [getElem_schedulePrefix_succ block (by omega), ih]

/-- A word of the schedule may be read in any prefix that reaches it. -/
theorem getElem_schedule (block : Vector Byte 64) {k t : Nat} (hk : k ≤ 48) (h : t < 16 + k) :
    (schedule block)[t]'(by omega) = (schedulePrefix block k)[t] :=
  getElem_schedulePrefix_of_le block hk h

/-- The first 16 words of the schedule are the block's words (R51, R99). -/
theorem getElem_schedule_of_lt_16 (block : Vector Byte 64) {t : Nat} (h : t < 16) :
    (schedule block)[t] = be32 block[4 * t] block[4 * t + 1] block[4 * t + 2] block[4 * t + 3] := by
  rw [getElem_schedule block (Nat.zero_le 48) h]
  exact getElem_blockWords block h

/-- The recurrence of R99, from the word that the prefix of length `16 + k` adds. -/
theorem getElem_schedule_add_16 (block : Vector Byte 64) {k : Nat} (h : k < 48) :
    (schedule block)[16 + k] =
      ssig1 (schedule block)[16 + k - 2] + (schedule block)[16 + k - 7]
        + ssig0 (schedule block)[16 + k - 15] + (schedule block)[16 + k - 16] := by
  have hearlier : ∀ {t : Nat} (ht : t < 16 + k),
      (schedule block)[t] = (schedulePrefix block k)[t] := getElem_schedule block h.le
  rw [getElem_schedule block h (by omega), getElem_schedulePrefix_last,
    hearlier (t := 16 + k - 2) (by omega), hearlier (t := 16 + k - 7) (by omega),
    hearlier (t := 16 + k - 15) (by omega), hearlier (t := 16 + k - 16) (by omega)]

/-- Settles O14: the block's words as numbers by `be32_toNat`, the later words by the recurrence at `t = 16 + k`. -/
theorem scheduleIsTheRecurrence : Obligations.ScheduleIsTheRecurrence := by
  intro block
  constructor
  · intro t ht
    rw [getElem_schedule_of_lt_16 block ht, be32_toNat]
  · intro t h16 ht
    obtain ⟨k, rfl⟩ := Nat.exists_eq_add_of_le h16
    exact getElem_schedule_add_16 block (by omega)

end Sys2Proof.Machine
end

section
/-! PROOFS. The hash commands (spec/41_hash_commands.md): each command by its contract, then what one `ABSORB`, a string of them,
`FINAL` and the whole `HASH` do. -/

namespace Sys2Proof.Machine

/-! ### The commands by their contract -/

/-- `INIT` (R122). -/
theorem exec_init_eq (s : State) :
    exec .init s = if s.seq = .idle then .next (initHash s) else .refused .interleaving := by
  simp [exec, execInit, require]

/-- `ABSORB b` (R124): the `SEQ` test first. -/
theorem exec_absorb_eq (b : Byte) (s : State) :
    exec (.absorb b) s =
      if s.seq = .idle ∨ s.seq = .inner then
        if s.hactive = true then .next (absorb b s) else .refused .hashNotActive
      else .refused .interleaving := by
  simp [exec, execAbsorb, require]

/-- `FINAL` (R127): the `SEQ` test first. -/
theorem exec_final_eq (s : State) :
    exec .final s =
      if s.seq = .idle then
        if s.hactive = true then .next (deliver (digestFrom s) (finalize s)) else .refused .hashNotActive
      else .refused .interleaving := by
  simp [exec, execFinal, require, digestBytes_finalize]

/-- `initHash` forgets what an earlier `initHash` wrote (R122). -/
theorem initHash_initHash (s : State) : initHash (initHash s) = initHash s := rfl

/-- Settles O18: `INIT` is `initHash` under the `SEQ` test, and `initHash` keeps `SEQ`. -/
theorem initStartsHash : Obligations.InitStartsHash := by
  refine ⟨by decide, fun s => ⟨fun hseq => ?_, fun hseq => ?_⟩⟩
  · simp [exec_init_eq, hseq]
  · have hinit : exec .init s = .next (initHash s) := by simp [exec_init_eq, hseq]
    refine ⟨hinit, fun t ht => ?_⟩
    obtain rfl : initHash s = t := by simpa [hinit] using ht
    simp [exec_init_eq, hseq, initHash_initHash]

/-! ### One byte -/

/-- A byte write in the form in which O19 states the block. -/
theorem setIfInBounds_eq_ofFn {size : Nat} (a : Vector Byte size) (n : Nat) (b : Byte) :
    a.setIfInBounds n b = Vector.ofFn fun j : Fin size => if j.val = n then b else a[j.val] := by
  refine Vector.ext fun j hj => ?_
  simp [Vector.getElem_setIfInBounds, eq_comm]

/-- `absorb` as one update of the state (R123). -/
theorem absorb_eq (b : Byte) (s : State) :
    absorb b s = { s with
      buf := s.buf.setIfInBounds s.fill.toNat b
      bitcnt := s.bitcnt + 8
      h := if s.fill.toNat = 63 then compress s.h (s.buf.setIfInBounds s.fill.toNat b) else s.h } := by
  rcases absorb_cases b s with ⟨hfill, habsorb⟩ | ⟨hfill, habsorb⟩
  · rw [habsorb, if_neg hfill]
    rfl
  · rw [habsorb, if_pos hfill, hfill]
    rfl

/-- Settles O19: the cases of the contract, then `absorb` as one update with FILL computed from the counter. -/
theorem absorbStoresCountsTransforms : Obligations.AbsorbStoresCountsTransforms := by
  intro b s
  refine ⟨?_, fun hseq => ?_, fun hseq hact => ?_, fun hseq hact block hblock => ?_⟩
  · simp [encode_toNat, Instr.op, Instr.imm]
  · simp [exec_absorb_eq, hseq]
  · simp [exec_absorb_eq, hseq, hact]
  · have hbuf : s.buf.setIfInBounds s.fill.toNat b = block := by
      rw [hblock, setIfInBounds_eq_ofFn, fill_toNat]
    have hcnt : s.bitcnt + 8 = BitVec.ofNat 64 (s.bitcnt.toNat + 8) := by
      apply BitVec.eq_of_toNat_eq
      simp [BitVec.toNat_add]
    rw [exec_absorb_eq, if_pos hseq, if_pos hact, absorb_eq, hbuf, hcnt, fill_toNat]

/-! ### The counter's halves -/

theorem bitcntLo_toNat (s : State) : s.bitcntLo.toNat = s.bitcnt.toNat % 2 ^ 32 := by
  simp [State.bitcntLo, BitVec.extractLsb'_toNat]

theorem bitcntHi_toNat (s : State) : s.bitcntHi.toNat = s.bitcnt.toNat / 2 ^ 32 := by
  have := s.bitcnt.isLt
  simp only [State.bitcntHi, BitVec.extractLsb'_toNat, Nat.shiftRight_eq_div_pow]
  omega

theorem absorb_bitcnt_toNat (b : Byte) (s : State) :
    (absorb b s).bitcnt.toNat = (s.bitcnt.toNat + 8) % 2 ^ 64 := by
  simp [BitVec.toNat_add]

/-- The low half counts modulo 2^32. -/
theorem absorb_bitcntLo (b : Byte) (s : State) : (absorb b s).bitcntLo = s.bitcntLo + 8 := by
  apply BitVec.eq_of_toNat_eq
  simp only [BitVec.toNat_add, bitcntLo_toNat, absorb_bitcnt_toNat, BitVec.reduceToNat]
  omega

/-- The high half takes the carry, which shows as a low half below 8 (R125). -/
theorem absorb_bitcntHi (b : Byte) (s : State) :
    (absorb b s).bitcntHi = if (absorb b s).bitcntLo.toNat < 8 then s.bitcntHi + 1 else s.bitcntHi := by
  have := s.bitcnt.isLt
  apply BitVec.eq_of_toNat_eq
  rw [bitcntLo_toNat, absorb_bitcnt_toNat]
  split
  · simp only [BitVec.toNat_add, bitcntHi_toNat, absorb_bitcnt_toNat, BitVec.reduceToNat]
    omega
  · simp only [bitcntHi_toNat, absorb_bitcnt_toNat]
    omega

/-- Settles O20: the two halves by the lemmas above; a count of whole bytes is a multiple of 8, so below 8 it is 0. -/
theorem bitCounterCarriesBetweenHalves : Obligations.BitCounterCarriesBetweenHalves := by
  intro b s t ht
  obtain ⟨-, -, rfl⟩ : (s.seq = .idle ∨ s.seq = .inner) ∧ s.hactive = true ∧ t = absorb b s := by
    simpa using exec_next_cases ht
  refine ⟨absorb_bitcntLo b s, absorb_bitcntHi b s, fun hbytes => ?_⟩
  simp only [← BitVec.toNat_inj, bitcntLo_toNat, absorb_bitcnt_toNat, BitVec.reduceToNat]
  omega

/-! ### Strings -/

/-- Settles O22: the run is `absorbAll`, and the state holds its pending bytes followed by the string over its own `H`. -/
theorem updateAppendsBytes : Obligations.UpdateAppendsBytes := by
  intro bs s hact hseq
  obtain ⟨hfold, hfill, hpending⟩ := (holds_self s).absorbAll bs
  have hlen : (pendingBytes s ++ bs).length = s.fill.toNat + bs.length := by
    rw [List.length_append, pendingBytes_length]
  rw [hlen] at hfill hpending
  refine ⟨absorbAll bs s, runCommands_updateCommands hact hseq bs, hfold, ?_, hpending, absorbAll_bitcnt bs s, hfill, ?_⟩
  · rw [blocks_length, hlen]
  · simp

/-- Settles O24: the cases of the contract; `finalize` gives the digest and `deliver` writes it and the flags. -/
theorem finalDeliversDigest : Obligations.FinalDeliversDigest := by
  refine ⟨by decide, fun s => ⟨fun hseq => ?_, fun hseq hact => ?_, fun hseq hact => ?_⟩⟩
  · simp [exec_final_eq, hseq]
  · simp [exec_final_eq, hseq, hact]
  · refine ⟨deliver (digestFrom s) (finalize s), ?_, ?_⟩
    · simp [exec_final_eq, hseq, hact]
    · simp [exec_final_eq, hseq]

/-- `HASH m` from `IDLE`: the run's three parts, and the digest of a hash begun and given `m`. -/
theorem runCommands_hashCommands {s : State} (hseq : s.seq = .idle) (m : List Byte) :
    runCommands (hashCommands m) s =
      .next (deliver (sha256 m) (finalize (absorbAll m (initHash s)))) := by
  have hinit : exec .init s = .next (initHash s) := by simp [exec_init_eq, hseq]
  have hupdate : runCommands (updateCommands m) (initHash s) = .next (absorbAll m (initHash s)) :=
    runCommands_updateCommands (initHash_hactive s) (.inl hseq) m
  have hfinal : exec .final (absorbAll m (initHash s)) =
      .next (deliver (sha256 m) (finalize (absorbAll m (initHash s)))) := by
    simp [exec_final_eq, hseq, digestFrom_absorbAll]
  rw [hashCommands, runCommands_cons_next hinit, runCommands_append_next hupdate, runCommands_cons_next hfinal,
    runCommands_nil]

/-- Settles O26: the state the run leaves, field by field. The digest clause does not use its length bound: `sha256` pads with the
bit length modulo 2^64, as the counter counts it. -/
theorem hashComputesSha256 : Obligations.HashComputesSha256 := by
  intro m s hseq
  refine ⟨_, runCommands_hashCommands hseq m, fun _ => deliver_dout _ _, ?_⟩
  simp [hseq]

end Sys2Proof.Machine
end

section
/-! PROOFS. The normalised key as the first block of a byte string (spec/42_hmac_commands.md R141, R144). -/

namespace Sys2Proof.Machine

/-! ### A string that fits one block -/

/-- The first block of a string that fits it: the string and zeros up to the end. -/
theorem toList_blockAt_zero {bytes : List Byte} (hlen : bytes.length ≤ 64) :
    (blockAt bytes 0).toList = bytes ++ List.replicate (64 - bytes.length) 0 := by
  refine List.ext_getElem? fun j => ?_
  rw [Vector.getElem?_toList, List.getElem?_append, List.getElem?_replicate]
  by_cases hj : j < bytes.length
  · simp [hj, show j < 64 by omega, List.getD_eq_getElem?_getD]
  · by_cases hj64 : j < 64
    · simp [hj, hj64, show j - bytes.length < 64 - bytes.length by omega, List.getD_eq_getElem?_getD]
    · simp [hj, hj64, show ¬ j - bytes.length < 64 - bytes.length by omega]

/-- Zeros at the end of a string do not show in its blocks, which end in zeros anyway. -/
theorem blockAt_append_zeros (bytes : List Byte) (k i : Nat) :
    blockAt (bytes ++ List.replicate k 0) i = blockAt bytes i := by
  refine Vector.ext fun j hj => ?_
  simp only [getElem_blockAt, List.getD_eq_getElem?_getD, List.getElem?_append, List.getElem?_replicate]
  by_cases h : 64 * i + j < bytes.length
  · rw [if_pos h]
  · rw [if_neg h, List.getElem?_eq_none (by omega)]
    split <;> rfl

/-! ### The key of a secret -/

theorem normalizeSecret_of_le {secret : List Byte} (hlen : secret.length ≤ 64) :
    normalizeSecret secret = blockAt secret 0 := by
  refine Vector.ext fun j hj => ?_
  simp [normalizeSecret, show ¬ 64 < secret.length by omega]

theorem normalizeSecret_of_gt {secret : List Byte} (hlen : 64 < secret.length) :
    normalizeSecret secret = blockAt (sha256 secret).toList 0 := by
  refine Vector.ext fun j hj => ?_
  simp [normalizeSecret, hlen]

/-- The key of a long secret (R144) is its digest as the start of a zeroed block. -/
theorem digestKey_eq_blockAt (d : Vector Byte 32) : digestKey d = blockAt d.toList 0 := by
  refine Vector.ext fun j hj => ?_
  by_cases h : j < 32 <;> simp [h, List.getD_eq_getElem?_getD]

/-- Settles O27: both cases are first blocks of a string of at most 64 bytes, the secret or its digest; trailing zeros do not
show in a block, and the digest of a long secret is a short secret. -/
theorem normalizeCornerCases : Obligations.NormalizeCornerCases := by
  intro secret
  have hdigest : (sha256 secret).toList.length = 32 := by simp
  have hshort : secret.length ≤ 64 →
      (normalizeSecret secret).toList = secret ++ List.replicate (64 - secret.length) 0 := fun hlen => by
    rw [normalizeSecret_of_le hlen, toList_blockAt_zero hlen]
  refine ⟨hshort, fun hlen => ?long, fun hlen => ?full, ?empty, fun k hk => ?zeros, fun hlen => ?rehash⟩
  case long => rw [normalizeSecret_of_gt hlen, toList_blockAt_zero (by omega), hdigest]
  case full => simpa [hlen] using hshort hlen.le
  case empty => rw [normalizeSecret_of_le (by simp), toList_blockAt_zero (by simp)]; rfl
  case zeros =>
    rw [normalizeSecret_of_le (by simpa using hk), normalizeSecret_of_le (by omega), blockAt_append_zeros]
  case rehash => rw [normalizeSecret_of_gt hlen, normalizeSecret_of_le (by omega)]

end Sys2Proof.Machine
end

section
/-! PROOFS. The key and MAC commands (spec/42_hmac_commands.md): each command by its contract, then what one `KEYBYTE`, a whole
`SETKEY`, `MACBEGIN` and `MACEND` do. -/

namespace Sys2Proof.Machine

/-! ### The commands by their contract -/

/-- The state `KEYBEGIN` leaves, with the hash state begun last (R142). -/
def beginKey (s : State) : State :=
  initHash { s with kvalid := false, key := Vector.replicate 64 0, klen := 0, seq := .keying }

@[simp] theorem beginKey_seq (s : State) : (beginKey s).seq = .keying := rfl
@[simp] theorem beginKey_dout (s : State) : (beginKey s).dout = s.dout := rfl
@[simp] theorem beginKey_dvalid (s : State) : (beginKey s).dvalid = s.dvalid := rfl
@[simp] theorem beginKey_rsp (s : State) : (beginKey s).rsp = s.rsp := rfl

/-- `KEYBEGIN` (R142); the order in which `SEQ` and the hash state are written does not show. -/
theorem exec_keybegin_eq (s : State) :
    exec .keybegin s = if s.seq = .idle then .next (beginKey s) else .refused .interleaving := by
  simp only [exec, execKeybegin, require, isIdle_eq]
  rfl

/-- `KEYBYTE b` (R143). -/
theorem exec_keybyte_eq (b : Byte) (s : State) :
    exec (.keybyte b) s =
      if s.seq = .keying then .next (absorb b (storeSecretByte b s)) else .refused .outOfSequence := by
  simp [exec, execKeybyte, require]

/-- `KEYEND` (R144). -/
theorem exec_keyend_eq (s : State) :
    exec .keyend s =
      if s.seq = .keying then .next { hashLongKey s with hactive := false, kvalid := true, seq := .idle }
      else .refused .outOfSequence := by
  simp [exec, execKeyend, require]

/-- `MACBEGIN` (R147): the `SEQ` test first. -/
theorem exec_macbegin_eq (s : State) :
    exec .macbegin s =
      if s.seq = .idle then if s.kvalid = true then .next (beginInner s) else .refused .noKey
      else .refused .interleaving := by
  simp [exec, execMacbegin, require]

/-- The digest of the outer pass (R148): the `opad` block, then the inner digest. -/
theorem digestBytes_outerPass (inner : Vector Byte 32) (s : State) :
    digestBytes (outerPass inner s).h = sha256 (opad s.key ++ inner.toList) := by
  rw [outerPass, digestBytes_finalize, ← absorbAll_append, digestFrom_absorbAll, initHash_key]

/-- `MACEND` (R148), the inner digest by its definition. -/
theorem exec_macend_eq (s : State) :
    exec .macend s =
      if s.seq = .inner then
        .next { deliver (sha256 (opad s.key ++ (digestFrom s).toList)) (outerPass (digestFrom s) (finalize s)) with
          seq := .idle }
      else .refused .outOfSequence := by
  simp [exec, execMacend, require, digestBytes_finalize, digestBytes_outerPass]

/-- Settles O28: `KEYBEGIN` by its contract, with the fields `initHash` writes. -/
theorem keybeginStartsKey : Obligations.KeybeginStartsKey := by
  refine ⟨by decide, fun s => ⟨fun hseq => ?_, fun hseq => ?_⟩⟩
  · simp [exec_keybegin_eq, hseq]
  · rw [exec_keybegin_eq, if_pos hseq]
    rfl

/-! ### One secret byte -/

/-- `storeSecretByte` as one update of the state (R143): an index of 64 or more stores nothing. -/
theorem storeSecretByte_eq (b : Byte) (s : State) :
    storeSecretByte b s = { s with
      key := s.key.setIfInBounds s.klen.toNat b
      klen := if s.klen.toNat < 65 then BitVec.ofNat 7 (s.klen.toNat + 1) else s.klen } := by
  have hstore : (s.klen < 64) ↔ s.klen.toNat < 64 := by simp [BitVec.lt_def]
  have hcount : (s.klen < 65) ↔ s.klen.toNat < 65 := by simp [BitVec.lt_def]
  have hnext : s.klen + 1 = BitVec.ofNat 7 (s.klen.toNat + 1) := by
    apply BitVec.eq_of_toNat_eq
    simp [BitVec.toNat_add]
  simp only [storeSecretByte, hstore, hcount, hnext]
  by_cases hroom : s.klen.toNat < 64
  · simp [hroom, show s.klen.toNat < 65 by omega, State.setKey]
  · have hout : s.key.setIfInBounds s.klen.toNat b = s.key := by
      refine Vector.ext fun j hj => ?_
      rw [Vector.getElem_setIfInBounds hj, if_neg (by omega)]
    rw [if_neg hroom, hout]
    split <;> rfl

/-- A byte counted, as the statements write the counter. -/
theorem bitcnt_add_eight (s : State) : s.bitcnt + 8 = BitVec.ofNat 64 (s.bitcnt.toNat + 8) := by
  apply BitVec.eq_of_toNat_eq
  simp [BitVec.toNat_add]

/-- Settles O29: `KEYBYTE` by its contract; the store and the absorption are one update each, and the first leaves what the second
reads. -/
theorem keybyteStoresCountsAbsorbs : Obligations.KeybyteStoresCountsAbsorbs := by
  intro b s
  refine ⟨?_, fun hseq => ?_, fun hseq block hblock => ?_⟩
  · simp [encode_toNat, Instr.op, Instr.imm]
  · simp [exec_keybyte_eq, hseq]
  · have hbuf : s.buf.setIfInBounds s.fill.toNat b = block := by
      rw [hblock, setIfInBounds_eq_ofFn, fill_toNat]
    have hfill : (storeSecretByte b s).fill = s.fill := by rw [State.fill, storeSecretByte_bitcnt, State.fill]
    rw [exec_keybyte_eq, if_pos hseq, absorb_eq, hfill, storeSecretByte_buf, hbuf, storeSecretByte_eq]
    simp only [bitcnt_add_eight, fill_toNat, setIfInBounds_eq_ofFn s.key]

/-! ### The end of a key -/

/-- The key `KEYEND` leaves (R144). -/
theorem hashLongKey_key (s : State) :
    (hashLongKey s).key = if s.klen.toNat = 65 then digestKey (digestFrom s) else s.key := by
  have hlong : s.klen = 65 ↔ s.klen.toNat = 65 := by rw [← BitVec.toNat_inj]; rfl
  rcases hashLongKey_cases s with ⟨hklen, h⟩ | ⟨hklen, h⟩
  · rw [h, if_pos (hlong.mp hklen), digestBytes_finalize]
  · rw [h, if_neg (mt hlong.mpr hklen)]

/-- Settles O30: `KEYEND` by its contract, the key of `hashLongKey` in its two cases; the digest's block is the digest and zeros. -/
theorem keyendFinishesKey : Obligations.KeyendFinishesKey := by
  refine ⟨by decide, fun s => ⟨fun hseq => ?_, fun hseq => ?_⟩⟩
  · simp [exec_keyend_eq, hseq]
  · refine ⟨{ hashLongKey s with hactive := false, kvalid := true, seq := .idle }, ?_, fun hklen => ?_, fun hklen => ?_, ?_⟩
    · rw [exec_keyend_eq, if_pos hseq]
    · show (hashLongKey s).key.toList = _
      rw [hashLongKey_key, if_pos hklen, digestKey_eq_blockAt, toList_blockAt_zero (by simp), Vector.length_toList]
    · show (hashLongKey s).key = _
      rw [hashLongKey_key, if_neg hklen]
    · simp

/-! ### A whole secret -/

/-- The bytes of a secret received one after another (R143), as `runCommands_keybytes` runs them. -/
def receiveSecret (bs : List Byte) (s : State) : State := bs.foldl (fun s b => absorb b (storeSecretByte b s)) s

@[simp] theorem receiveSecret_nil (s : State) : receiveSecret [] s = s := rfl

@[simp] theorem receiveSecret_cons (b : Byte) (bs : List Byte) (s : State) :
    receiveSecret (b :: bs) s = receiveSecret bs (absorb b (storeSecretByte b s)) := rfl

/-- Absorption neither reads nor writes the key and its count. -/
theorem absorb_withKey (b : Byte) (s : State) (key : Vector Byte 64) (klen : BitVec 7) :
    absorb b { s with key := key, klen := klen } = { absorb b s with key := key, klen := klen } := by
  rw [absorb_eq, absorb_eq]
  rfl

theorem absorbAll_withKey (bs : List Byte) (s : State) (key : Vector Byte 64) (klen : BitVec 7) :
    absorbAll bs { s with key := key, klen := klen } = { absorbAll bs s with key := key, klen := klen } := by
  induction bs generalizing s with
  | nil => rfl
  | cons b bs ih => rw [absorbAll_cons, absorb_withKey, ih, absorbAll_cons]

/-- But for the key and its count, a secret is received as a message is absorbed (R143). -/
theorem receiveSecret_eq (bs : List Byte) (s : State) :
    ∃ key klen, receiveSecret bs s = { absorbAll bs s with key := key, klen := klen } := by
  induction bs generalizing s with
  | nil => exact ⟨s.key, s.klen, rfl⟩
  | cons b bs ih =>
    obtain ⟨key, klen, h⟩ := ih (absorb b (storeSecretByte b s))
    refine ⟨key, klen, ?_⟩
    rw [receiveSecret_cons, h, storeSecretByte_eq, absorb_withKey, absorbAll_withKey, absorbAll_cons]

@[simp] theorem receiveSecret_seq (bs : List Byte) (s : State) : (receiveSecret bs s).seq = s.seq := by
  obtain ⟨key, klen, h⟩ := receiveSecret_eq bs s
  simp [h]

@[simp] theorem receiveSecret_dout (bs : List Byte) (s : State) : (receiveSecret bs s).dout = s.dout := by
  obtain ⟨key, klen, h⟩ := receiveSecret_eq bs s
  simp [h]

@[simp] theorem receiveSecret_dvalid (bs : List Byte) (s : State) : (receiveSecret bs s).dvalid = s.dvalid := by
  obtain ⟨key, klen, h⟩ := receiveSecret_eq bs s
  simp [h]

@[simp] theorem receiveSecret_rsp (bs : List Byte) (s : State) : (receiveSecret bs s).rsp = s.rsp := by
  obtain ⟨key, klen, h⟩ := receiveSecret_eq bs s
  simp [h]

/-- The digest of a secret received since the hash was begun. -/
theorem digestFrom_receiveSecret (bs : List Byte) (s : State) :
    digestFrom (receiveSecret bs (initHash s)) = sha256 bs := by
  obtain ⟨key, klen, h⟩ := receiveSecret_eq bs (initHash s)
  rw [h, ← digestFrom_absorbAll bs s]
  rfl

/-- `KEY` and `KLEN` after the bytes `m` of a secret (R27, R28): its first 64 bytes and zeros, and its length up to 65. -/
structure KeyHolds (m : List Byte) (s : State) : Prop where
  stored : s.key = blockAt m 0
  counted : s.klen.toNat = min m.length 65

/-- One byte more (R143). -/
theorem KeyHolds.keybyte {m : List Byte} {s : State} (hs : KeyHolds m s) (b : Byte) :
    KeyHolds (m ++ [b]) (absorb b (storeSecretByte b s)) := by
  obtain ⟨hkey, hklen⟩ := hs
  constructor
  case counted =>
    rw [absorb_klen, storeSecretByte_klen_toNat, hklen, List.length_append, List.length_singleton]
    split <;> omega
  case stored =>
    rw [absorb_key, storeSecretByte_eq]
    refine Vector.ext fun j hj => ?_
    simp only [Vector.getElem_setIfInBounds hj, hkey, hklen, getElem_blockAt, List.getD_eq_getElem?_getD,
      List.getElem?_append, Nat.mul_zero, Nat.zero_add]
    by_cases hin : j < m.length
    · rw [if_neg (by omega), if_pos hin]
    · by_cases hat : j = m.length
      · subst hat
        simp
        omega
      · have hpast : [b].length ≤ j - m.length := by rw [List.length_singleton]; omega
        rw [if_neg (by omega), if_neg hin, List.getElem?_eq_none (by omega), List.getElem?_eq_none hpast]

theorem KeyHolds.receiveSecret {m : List Byte} {s : State} (hs : KeyHolds m s) (bs : List Byte) :
    KeyHolds (m ++ bs) (receiveSecret bs s) := by
  induction bs generalizing m s with
  | nil => simpa using hs
  | cons b bs ih => simpa using ih (hs.keybyte b)

/-- `KEYBEGIN` leaves a key of no bytes (R142). -/
theorem keyHolds_beginKey (s : State) : KeyHolds [] (beginKey s) := by
  refine ⟨Vector.ext fun j hj => ?_, rfl⟩
  simp [beginKey]

/-- The key that `KEYEND` makes of a secret received (R141, R144). -/
theorem KeyHolds.normalized {secret : List Byte} {s : State} (hs : KeyHolds secret s)
    (hdigest : digestFrom s = sha256 secret) : (hashLongKey s).key = normalizeSecret secret := by
  obtain ⟨hkey, hklen⟩ := hs
  rw [hashLongKey_key]
  by_cases hlen : 64 < secret.length
  · rw [if_pos (by omega), hdigest, digestKey_eq_blockAt, normalizeSecret_of_gt hlen]
  · rw [if_neg (by omega), hkey, normalizeSecret_of_le (by omega)]

/-- `SETKEY secret` from `IDLE`: the run's three parts (R150). -/
theorem runCommands_setkeyCommands {s : State} (hseq : s.seq = .idle) (secret : List Byte) :
    runCommands (setkeyCommands secret) s =
      .next { hashLongKey (receiveSecret secret (beginKey s)) with hactive := false, kvalid := true, seq := .idle } := by
  have hbegin : exec .keybegin s = .next (beginKey s) := by simp [exec_keybegin_eq, hseq]
  have hbytes : runCommands (secret.map .keybyte) (beginKey s) = .next (receiveSecret secret (beginKey s)) :=
    runCommands_keybytes rfl secret
  have hend : exec .keyend (receiveSecret secret (beginKey s)) =
      .next { hashLongKey (receiveSecret secret (beginKey s)) with hactive := false, kvalid := true, seq := .idle } := by
    simp [exec_keyend_eq]
  rw [setkeyCommands, runCommands_cons_next hbegin, runCommands_append_next hbytes, runCommands_cons_next hend,
    runCommands_nil]

/-- Settles O31: the state the run leaves; before `KEYEND` it holds the secret's bytes in `KEY` and the secret's digest in its hash.
The key clause does not use its length bound: `sha256` pads with the bit length modulo 2^64, as the counter counts it. -/
theorem setkeyNormalizesSecret : Obligations.SetkeyNormalizesSecret := by
  intro secret s hseq
  have hreceived : KeyHolds secret (receiveSecret secret (beginKey s)) := by
    simpa using (keyHolds_beginKey s).receiveSecret secret
  have hkey := hreceived.normalized (digestFrom_receiveSecret secret _)
  refine ⟨_, runCommands_setkeyCommands hseq secret, fun _ => hkey, ?_⟩
  simp [hreceived.counted]

/-! ### The passes of a MAC -/

/-- The pad block as the statements write it (R146). -/
theorem pad_eq_ofFn (mask : Byte) (key : Vector Byte 64) :
    pad mask key = List.ofFn fun j : Fin 64 => key[j.val] ^^^ mask := by
  refine List.ext_getElem (by simp) fun j _ _ => ?_
  rw [List.getElem_ofFn]
  simp [pad]

/-- A whole block read back as a vector. -/
theorem blockAt_pad (mask : Byte) (key : Vector Byte 64) :
    blockAt (pad mask key) 0 = Vector.ofFn fun j : Fin 64 => key[j.val] ^^^ mask := by
  refine Vector.ext fun j hj => ?_
  simp [pad_getElem? mask key hj]

/-- The inner pass has absorbed the `ipad` block and nothing else (R147). -/
theorem holds_beginInner (s : State) : Holds IV (ipad s.key) (beginInner s) :=
  (holds_initHash { s with seq := .inner }).absorbAll (ipad s.key)

theorem beginInner_bitcnt (s : State) : (beginInner s).bitcnt = 512 := by
  rw [beginInner, absorbAll_bitcnt, ipad, pad_length]
  rfl

/-- Settles O32: `MACBEGIN` by its contract; the state holds one block, the `ipad`. -/
theorem macbeginAbsorbsInnerPad : Obligations.MacbeginAbsorbsInnerPad := by
  refine ⟨by decide, fun s => ⟨fun hseq => ?_, fun hseq hkv => ?_, fun hseq hkv => ?_⟩⟩
  · simp [exec_macbegin_eq, hseq]
  · simp [exec_macbegin_eq, hseq, hkv]
  · obtain ⟨hfold, hfill, -⟩ := holds_beginInner s
    have hlen : (ipad s.key).length = 64 := pad_length 0x36 s.key
    refine ⟨beginInner s, by rw [exec_macbegin_eq, if_pos hseq, if_pos hkv], ?_, beginInner_bitcnt s, ?_, ?_⟩
    · rw [hfold, compressAll_block IV hlen, ipad, blockAt_pad]
    · rw [hlen] at hfill
      exact BitVec.eq_of_toNat_eq hfill
    · simp

/-- Settles O33: `MACEND` by its contract, in which the digest is already that of the `opad` block and the inner digest. -/
theorem macendDeliversOuterDigest : Obligations.MacendDeliversOuterDigest := by
  refine ⟨by decide, fun s => ⟨fun hseq => ?_, fun hseq => ?_⟩⟩
  · simp [exec_macend_eq, hseq]
  · refine ⟨_, by rw [exec_macend_eq, if_pos hseq], ?_, ?_⟩
    · rw [← pad_eq_ofFn]
      rfl
    · simp

end Sys2Proof.Machine
end

section
/-! PROOFS. The sequencer table (spec/42_hmac_commands.md R149): the commands' contracts row by row. -/

namespace Sys2Proof.Machine

/-- The rows of the sequencer table: at a command boundary `SEQ` is not `OUTER`. -/
theorem BoundaryInv.seq_cases {s : State} (hs : BoundaryInv s) :
    s.seq = .idle ∨ s.seq = .keying ∨ s.seq = .inner := by
  have houter := hs.neverOuter
  cases hseq : s.seq with
  | outer => exact absurd hseq houter
  | _ => simp

/-- `RDDIG` of a digest byte once a digest is valid (R160). -/
theorem exec_rddig_of_dvalid {j : Byte} (hj : j.toNat < 32) {s : State} (hs : s.dvalid = true) :
    exec (.rddig j) s = .next (respond s.dout[j.toNat] s) := by
  simp [exec, execRddig, State.digestOperand, hj, hs]

/-- `RDSTAT` runs in every state (R161). -/
theorem exec_rdstat_eq (s : State) : exec .rdstat s = .next (respond s.status s) := rfl

/-- The read commands have no column. -/
theorem sequencerTable_of_read {i : Instr} (hi : (∃ j, i = .rddig j) ∨ i = .rdstat) (hactive kvalid : Bool) (q : Seq) :
    sequencerTable hactive kvalid q i = none := by
  rcases hi with ⟨j, rfl⟩ | rfl <;> cases q <;> rfl

/-- A read command does not move `SEQ`. -/
theorem seq_of_read_next {i : Instr} (hi : (∃ j, i = .rddig j) ∨ i = .rdstat) {s t : State} (h : exec i s = .next t) :
    t.seq = s.seq := by
  rcases hi with ⟨j, rfl⟩ | rfl
  · obtain ⟨-, -, rfl⟩ : ∃ hj : j.toNat < 32, s.dvalid = true ∧ t = respond s.dout[j.toNat] s := by
      simpa using exec_next_cases h
    rfl
  · obtain rfl : respond s.status s = t := by simpa [exec_rdstat_eq] using h
    rfl

/-- Settles O40: a column at a time, the rows of the table against the command's contract. In row `INNER` the invariant gives
`ABSORB` its hash; the read commands have no column. -/
theorem sequencerFollowsTable : Obligations.SequencerFollowsTable := by
  refine ⟨fun i s hs => ?_, fun s rest hport => ⟨_, step_reset hport, applyReset_seq _⟩⟩
  have hrows := hs.seq_cases
  cases i with
  | init => rcases hrows with hseq | hseq | hseq <;> simp [sequencerTable, exec_init_eq, hseq]
  | absorb b =>
    rcases hrows with hseq | hseq | hseq
    · cases hact : s.hactive <;> simp [sequencerTable, exec_absorb_eq, hseq, hact]
    · simp [sequencerTable, exec_absorb_eq, hseq]
    · obtain ⟨hact, -⟩ := hs.innerOwns hseq
      simp [sequencerTable, exec_absorb_eq, hseq, hact]
  | final =>
    rcases hrows with hseq | hseq | hseq
    · cases hact : s.hactive <;> simp [sequencerTable, exec_final_eq, hseq, hact]
    · simp [sequencerTable, exec_final_eq, hseq]
    · simp [sequencerTable, exec_final_eq, hseq]
  | rddig j =>
    rw [sequencerTable_of_read (.inl ⟨j, rfl⟩)]
    refine ⟨fun t => seq_of_read_next (.inl ⟨j, rfl⟩), fun hwf hdv => ⟨_, exec_rddig_of_dvalid ?_ hdv⟩⟩
    simpa [Instr.WellFormed] using hwf
  | keybegin => rcases hrows with hseq | hseq | hseq <;> simp [sequencerTable, exec_keybegin_eq, hseq]
  | keybyte b => rcases hrows with hseq | hseq | hseq <;> simp [sequencerTable, exec_keybyte_eq, hseq]
  | keyend => rcases hrows with hseq | hseq | hseq <;> simp [sequencerTable, exec_keyend_eq, hseq]
  | macbegin =>
    rcases hrows with hseq | hseq | hseq
    · cases hkv : s.kvalid <;> simp [sequencerTable, exec_macbegin_eq, hseq, hkv]
    · simp [sequencerTable, exec_macbegin_eq, hseq]
    · simp [sequencerTable, exec_macbegin_eq, hseq]
  | macend => rcases hrows with hseq | hseq | hseq <;> simp [sequencerTable, exec_macend_eq, hseq]
  | rdstat =>
    rw [sequencerTable_of_read (.inr rfl)]
    exact ⟨fun t => seq_of_read_next (.inr rfl), fun _ _ => ⟨_, exec_rdstat_eq s⟩⟩

end Sys2Proof.Machine
end

section
/-! PROOFS. The read-out commands (spec/43_readout.md): the digest's bytes in order, the layout of `STATUS`. -/

namespace Sys2Proof.Machine

/-! ### The digest -/

/-- `RDDIG` with its index written as a number (R160). -/
theorem exec_rddig_ofNat {n : Nat} (hn : n < 32) {s : State} (hdv : s.dvalid = true) :
    exec (.rddig (BitVec.ofNat 8 n)) s = .next (respond s.dout[n] s) := by
  have hindex : (BitVec.ofNat 8 n).toNat = n := Nat.mod_eq_of_lt (by omega)
  have hread := exec_rddig_of_dvalid (j := BitVec.ofNat 8 n) (by omega) hdv
  simpa only [hindex] using hread

/-- Reading the first `n` bytes of a valid digest answers them in order and changes nothing else. -/
theorem runCommands_rddig_range {s : State} (hdv : s.dvalid = true) {n : Nat} (hn : n ≤ 32) :
    runCommands ((List.range n).map fun j => .rddig (BitVec.ofNat 8 j)) s =
      .next { s with rsp := s.rsp ++ s.dout.toList.take n } := by
  induction n with
  | zero => simp
  | succ n ih =>
    have hlt : n < 32 := hn
    have hread := exec_rddig_ofNat (s := { s with rsp := s.rsp ++ s.dout.toList.take n }) hlt hdv
    have hbyte : s.dout.toList[n]? = some s.dout[n] := by simp [hlt]
    rw [List.range_succ, List.map_append, runCommands_append_next (ih (by omega)), List.map_singleton,
      runCommands_cons_next hread, runCommands_nil, List.take_add_one, hbyte]
    simp [respond]

/-- Settles O37: `RDDIGEST` reads as many bytes as `DOUT` holds. -/
theorem rddigestReturnsWholeDigest : Obligations.RddigestReturnsWholeDigest := by
  intro s hdv
  have hall : s.dout.toList.take 32 = s.dout.toList := List.take_of_length_le (by simp)
  rw [rddigestCommands, runCommands_rddig_range hdv le_rfl, hall]

/-! ### STATUS -/

/-- A flag appended below a field is the lowest bit of the number. -/
theorem toNat_append_ofBool {n : Nat} (x : BitVec n) (b : Bool) :
    (x ++ BitVec.ofBool b).toNat = 2 * x.toNat + b.toNat := by
  rw [BitVec.toNat_append, BitVec.toNat_ofBool, ← Nat.shiftLeft_add_eq_or_of_lt (by simpa using b.toNat_lt),
    Nat.shiftLeft_eq, mul_comm, pow_one]

/-- `STATUS` as a number: each field at its weight (R34). -/
theorem status_toNat (s : State) :
    s.status.toNat = 8 * s.seq.code.toNat + 4 * s.kvalid.toNat + 2 * s.dvalid.toNat + s.hactive.toNat := by
  have hseq : ((0#3 : BitVec 3) ++ s.seq.code).toNat = s.seq.code.toNat := by
    rw [BitVec.toNat_append]
    simp
  simp only [State.status, toNat_append_ofBool, hseq]
  omega

/-- The three flags are the bits 0 to 2 of `STATUS` (R34). -/
theorem status_flags (s : State) :
    s.status.getLsbD 0 = s.hactive ∧ s.status.getLsbD 1 = s.dvalid ∧ s.status.getLsbD 2 = s.kvalid := by
  simp only [State.status, BitVec.getLsbD_append, BitVec.getLsbD_ofBool]
  simp

/-- Below `SEQ` stand the three flags and nothing else. -/
theorem status_toNat_bounds (s : State) :
    8 * s.seq.code.toNat ≤ s.status.toNat ∧ s.status.toNat < 8 * s.seq.code.toNat + 8 := by
  have hnum := status_toNat s
  have hh := s.hactive.toNat_lt
  have hd := s.dvalid.toNat_lt
  have hk := s.kvalid.toNat_lt
  omega

/-- `DVALID` is one of two values, the other fields given. -/
theorem status_dvalid_cases (s : State) :
    s.status = State.status { s with dvalid := false } ∨ s.status = State.status { s with dvalid := true } := by
  cases hdv : s.dvalid with
  | false => exact .inl (by simp [State.status, hdv])
  | true => exact .inr (by simp [State.status, hdv])

/-- `STATUS` while a key is received: only `DVALID` is open (R161). -/
theorem BoundaryInv.status_of_keying {s : State} (hs : BoundaryInv s) (hseq : s.seq = .keying) :
    s.status = 0x09 ∨ s.status = 0x0B := by
  obtain ⟨hact, hkv⟩ := hs.keyingOwns hseq
  simpa [State.status, Seq.code, hseq, hact, hkv] using status_dvalid_cases s

/-- `STATUS` in the inner pass of a MAC: only `DVALID` is open (R161). -/
theorem BoundaryInv.status_of_inner {s : State} (hs : BoundaryInv s) (hseq : s.seq = .inner) :
    s.status = 0x15 ∨ s.status = 0x17 := by
  obtain ⟨hact, hkv⟩ := hs.innerOwns hseq
  simpa [State.status, Seq.code, hseq, hact, hkv] using status_dvalid_cases s

/-- Settles O38: the flags bit by bit, the field of `SEQ` from its bounds, the values at a boundary from what `SEQ` says there. -/
theorem rdstatReturnsStatusLayout : Obligations.RdstatReturnsStatusLayout := by
  refine ⟨by decide, fun s => ⟨exec_rdstat_eq s, ?_⟩⟩
  obtain ⟨hbit0, hbit1, hbit2⟩ := status_flags s
  obtain ⟨hlow, hhigh⟩ := status_toNat_bounds s
  have hcode : s.seq.code.toNat < 4 := s.seq.code.isLt
  refine ⟨hbit0, hbit1, hbit2, ?_, by omega, fun hs => ⟨hs.status_of_keying, hs.status_of_inner, fun hseq => ?_⟩⟩
  · have hfield : s.status.toNat / 8 % 4 = s.seq.code.toNat := by omega
    rw [hfield]
    cases s.seq <;> rfl
  · have hidle : s.seq.code.toNat = 0 := by rw [hseq]; rfl
    omega

end Sys2Proof.Machine
end

section
/-! PROOFS. The host software (spec/48_host_software.md R171 to R174): how many bytes a run of commands responds, the shape of
what `sign` returns, and `verify` on either side of the comparison. -/

namespace Sys2Proof

/-- The commands that respond: `RDDIG` and `RDSTAT`, one byte each (R77). -/
def Instr.isRead : Instr → Bool
  | .rddig _ | .rdstat => true
  | _ => false

end Sys2Proof

namespace Sys2Proof.Machine

/-! ### How many bytes a run responds -/

/-- A command that completes responds one byte if it is a read command, and none otherwise. -/
theorem exec_next_rsp_length {i : Instr} {s t : State} (h : exec i s = .next t) :
    t.rsp.length = s.rsp.length + if i.isRead then 1 else 0 := by
  rcases exec_next_cases h with ⟨rfl, -, rfl⟩ | ⟨b, rfl, -, -, rfl⟩ | ⟨rfl, -, -, rfl⟩ | ⟨j, hj, rfl, -, rfl⟩ |
    ⟨rfl, -, rfl⟩ | ⟨b, rfl, -, rfl⟩ | ⟨rfl, -, rfl⟩ | ⟨rfl, -, -, rfl⟩ | ⟨rfl, -, rfl⟩ | ⟨rfl, rfl⟩ <;>
  simp [Instr.isRead]

/-- A run that completes responds one byte for each of its read commands. -/
theorem runCommands_next_rsp_length {cmds : List Instr} {s t : State} (h : runCommands cmds s = .next t) :
    t.rsp.length = s.rsp.length + cmds.countP Instr.isRead := by
  induction cmds generalizing s with
  | nil =>
    obtain rfl : s = t := by simpa using h
    simp
  | cons i rest ih =>
    cases hi : exec i s with
    | next u =>
      rw [runCommands_cons_next hi] at h
      rw [ih h, exec_next_rsp_length hi, List.countP_cons]
      omega
    | fault f => cases f
    | refused r =>
      rw [runCommands_cons_refused hi] at h
      cases h

/-- A MAC and the reading of its digest hold the 32 reads of the digest and no other. -/
theorem countP_isRead_mac_rddigest (m : List Byte) :
    (macCommands m ++ rddigestCommands).countP Instr.isRead = 32 := by
  have hupdate : (updateCommands m).countP Instr.isRead = 0 := by
    simp [updateCommands, Instr.isRead]
  have hread : rddigestCommands.countP Instr.isRead = 32 := by decide
  simp [macCommands, hupdate, hread, Instr.isRead]

end Sys2Proof.Machine

namespace Sys2Proof.Software

open Sys2Proof.Machine

/-! ### Hexadecimal digits -/

/-- The letters `a`..`f` in upper case, all else unchanged: the other case of a signature's letters (R174). -/
def upperChar (c : Byte) : Byte := if 0x61 ≤ c ∧ c ≤ 0x66 then c - 0x20 else c

/-- `foldChar` leaves the digits `hex` writes. -/
theorem foldChar_hexDigit : ∀ n < 16, foldChar (hexDigit n) = hexDigit n := by decide

/-- `foldChar` takes the upper case of a digit back to the digit `hex` writes. -/
theorem foldChar_upperChar_hexDigit : ∀ n < 16, foldChar (upperChar (hexDigit n)) = hexDigit n := by decide

/-- The digit `hex` writes for a number has that value. -/
theorem digitValue_hexDigit : ∀ n < 16, Assembler.digitValue (hexDigit n) = some n := by decide

/-- A letter and its lower case have the same value as digits. -/
theorem digitValue_foldChar (c : Byte) : Assembler.digitValue (foldChar c) = Assembler.digitValue c := by
  by_cases hc : 0x41 ≤ c ∧ c ≤ 0x46
  · have hfold : foldChar c = c + 0x20 := if_pos hc
    have hlow : 0x41 ≤ c.toNat := by bv_omega
    have hhigh : c.toNat ≤ 0x46 := by bv_omega
    have hsum : (c + 0x20).toNat = c.toNat + 0x20 := by bv_omega
    have hvalue : c.toNat + 0x20 - 0x57 = c.toNat - 0x37 := by omega
    simp only [hfold, Assembler.digitValue, hsum]
    rw [if_neg (by omega), if_pos (by omega), if_neg (by omega), if_neg (by omega), if_pos ⟨hlow, hhigh⟩, hvalue]
  · have hfold : foldChar c = c := if_neg hc
    rw [hfold]

/-- Two digits a byte (R171). -/
@[simp] theorem hex_length (d : List Byte) : (hex d).length = 2 * d.length := by
  simp [hex, hexByte, List.length_flatMap, mul_comm]

/-- `hex` writes nothing but digits. -/
theorem exists_hexDigit_of_mem_hex {c : Byte} {d : List Byte} (hc : c ∈ hex d) : ∃ n < 16, c = hexDigit n := by
  obtain ⟨b, -, hb⟩ := List.mem_flatMap.mp hc
  have hhigh : b.toNat / 16 < 16 := by have := b.isLt; omega
  have hlow : b.toNat % 16 < 16 := Nat.mod_lt _ (by decide)
  obtain rfl | rfl : c = hexDigit (b.toNat / 16) ∨ c = hexDigit (b.toNat % 16) := by simpa [hexByte] using hb
  · exact ⟨_, hhigh, rfl⟩
  · exact ⟨_, hlow, rfl⟩

/-! ### Folding -/

@[simp] theorem fold_length (s : Text) : (fold s).length = s.length := List.length_map _

/-- Folding undoes every change of what `hex` writes that it undoes digit by digit. -/
theorem fold_map_hex {f : Byte → Byte} (hf : ∀ n < 16, foldChar (f (hexDigit n)) = hexDigit n) (d : List Byte) :
    fold ((hex d).map f) = hex d := by
  rw [fold, List.map_map]
  refine (List.map_congr_left fun c hc => ?_).trans (List.map_id _)
  obtain ⟨n, hn, rfl⟩ := exists_hexDigit_of_mem_hex hc
  exact hf n hn

/-- What `hex` writes is folded already. -/
theorem fold_hex (d : List Byte) : fold (hex d) = hex d := by
  simpa using fold_map_hex (f := id) foldChar_hexDigit d

/-- A text that folds to what `hex` writes holds nothing but hexadecimal digits, in either case. -/
theorem digitValue_ne_none_of_fold_eq_hex {sig : Text} {d : List Byte} (h : fold sig = hex d) {c : Byte} (hc : c ∈ sig) :
    Assembler.digitValue c ≠ none := by
  have hmem : foldChar c ∈ hex d := h ▸ List.mem_map_of_mem hc
  obtain ⟨n, hn, hdigit⟩ := exists_hexDigit_of_mem_hex hmem
  have hvalue : Assembler.digitValue c = some n := by
    rw [← digitValue_foldChar, hdigit, digitValue_hexDigit n hn]
  simp [hvalue]

/-! ### `sign` and `verify` -/

/-- `sign` returns `hex` of 32 bytes, those the run of `MAC` and `RDDIGEST` responds (R172). -/
theorem sign_next {m x : Text} {s t : State} (h : sign m s = .next (t, x)) :
    ∃ d : List Byte, d.length = 32 ∧ x = hex d := by
  cases hrun : runCommands (macCommands m ++ rddigestCommands) s with
  | next u =>
    have hcount := runCommands_next_rsp_length hrun
    rw [countP_isRead_mac_rddigest] at hcount
    obtain ⟨rfl, rfl⟩ : u = t ∧ hex (u.rsp.drop s.rsp.length) = x := by simpa [sign, collect, hrun] using h
    exact ⟨u.rsp.drop s.rsp.length, by simp [hcount], rfl⟩
  | fault f => cases f
  | refused r => simp [sign, collect, hrun] at h

/-- `verify` compares with what `sign` returns and leaves the engine as `sign` does (R174). -/
theorem verify_of_sign {m x : Text} {s t : State} (h : sign m s = .next (t, x)) (sig : Text) :
    verify m sig s = .next (t, decide (fold x = fold sig)) := by
  simp [verify, h]

/-- `verify` accepts every text that folds to the signature. -/
theorem verify_true {m sig : Text} {d : List Byte} {s t : State} (h : sign m s = .next (t, hex d))
    (heq : fold sig = hex d) : verify m sig s = .next (t, true) := by
  rw [verify_of_sign h, fold_hex, heq, decide_eq_true rfl]

/-- `verify` answers false for every other text; it is not an error. -/
theorem verify_false {m sig : Text} {d : List Byte} {s t : State} (h : sign m s = .next (t, hex d))
    (hne : fold sig ≠ hex d) : verify m sig s = .next (t, false) := by
  rw [verify_of_sign h, fold_hex, decide_eq_false hne.symm]

/-- Settles O49: `sign` returns `hex` of 32 bytes, so a text that folds to the same has 64 characters, all of them digits. -/
theorem verifyFoldsCase : Obligations.VerifyFoldsCase := by
  intro m sig x s t hsign
  obtain ⟨d, hd, rfl⟩ := sign_next hsign
  refine ⟨verify_of_sign hsign sig, verify_true hsign (fold_hex d), ?_, fun hlen => ?_, fun ⟨c, hc, hnone⟩ => ?_⟩
  · exact verify_true hsign (fold_map_hex foldChar_upperChar_hexDigit d)
  · refine verify_false hsign fun heq => hlen ?_
    rw [← fold_length, heq, hex_length, hd]
  · exact verify_false hsign fun heq => digitValue_ne_none_of_fold_eq_hex heq hc hnone

end Sys2Proof.Software
end

section
/-! PROOFS. Decoding as the inverse of encoding, and the words that are no command (spec/30_encoding.md R70 to R75). -/
namespace Sys2Proof

/-- The bits a mask tests are the pattern's in a word that matches. -/
theorem extractLsb'_of_match {w mask pattern : CommandWord} (h : w &&& mask = pattern) {start len : Nat}
    (hmask : mask.extractLsb' start len = BitVec.allOnes len) :
    w.extractLsb' start len = pattern.extractLsb' start len := by
  rw [← h, BitVec.extractLsb'_and, hmask, BitVec.and_allOnes]

/-- Format `C`: a word is its operation code, four zero bits and its immediate (R71). -/
theorem encode_eq_of_fields {w : CommandWord} {i : Instr} (hhigh : w.extractLsb' 8 8 = i.op ++ (0#4 : BitVec 4))
    (himm : immField w = i.imm) : encode i = w := by
  apply BitVec.eq_of_toNat_eq
  have hhigh' := congrArg BitVec.toNat hhigh
  have himm' := congrArg BitVec.toNat himm
  have hlt := w.isLt
  simp only [immField, BitVec.extractLsb'_toNat, Nat.shiftRight_eq_div_pow, Machine.append_toNat,
    BitVec.toNat_ofNat] at hhigh' himm'
  rw [encode_toNat]
  omega

/-- Every row tests the bits above the immediate, and asks there for the operation code it builds (R73). -/
theorem OpcodeRow.tests_high {r : OpcodeRow} (hr : r ∈ opcodeTable) :
    r.mask.extractLsb' 8 8 = BitVec.allOnes 8 ∧
    ∀ b, r.pattern.extractLsb' 8 8 = (r.build b).op ++ (0#4 : BitVec 4) := by
  simp only [opcodeTable, List.mem_cons, List.not_mem_nil, or_false] at hr
  rcases hr with rfl | rfl | rfl | rfl | rfl | rfl | rfl | rfl | rfl | rfl <;> exact ⟨by decide, fun _ => by simp [Instr.op]⟩

/-- A matching row takes the immediate as it stands, where it takes one, and leaves no bit of it open where it takes none (R72). -/
theorem OpcodeRow.imm_build {r : OpcodeRow} (hr : r ∈ opcodeTable) {w : CommandWord} (hw : w &&& r.mask = r.pattern) :
    (r.build (immField w)).WellFormed = true ∧ immField w = (r.build (immField w)).imm := by
  have hnone : ∀ {p : CommandWord}, w &&& 0xFFFF = p → immField w = p.extractLsb' 0 8 := fun h =>
    extractLsb'_of_match h (by decide)
  simp only [opcodeTable, List.mem_cons, List.not_mem_nil, or_false] at hr
  obtain rfl | rfl | rfl | rfl | rfl | rfl | rfl | rfl | rfl | rfl := hr
  · exact ⟨rfl, hnone hw⟩
  · exact ⟨rfl, rfl⟩
  · exact ⟨rfl, hnone hw⟩
  · have hlow := toNat_mod_256_of_rddig hw
    have himm : (immField w).toNat = w.toNat % 256 := immField_eq_iff.mp rfl
    refine ⟨?_, rfl⟩
    simp only [Instr.WellFormed, himm, decide_eq_true_eq]
    omega
  · exact ⟨rfl, hnone hw⟩
  · exact ⟨rfl, rfl⟩
  · exact ⟨rfl, hnone hw⟩
  · exact ⟨rfl, hnone hw⟩
  · exact ⟨rfl, hnone hw⟩
  · exact ⟨rfl, hnone hw⟩

/-- The command a matching row builds from a word is well formed and has that word (R72, R73). -/
theorem OpcodeRow.encode_build {r : OpcodeRow} (hr : r ∈ opcodeTable) {w : CommandWord} (hw : w &&& r.mask = r.pattern) :
    (r.build (immField w)).WellFormed = true ∧ encode (r.build (immField w)) = w := by
  obtain ⟨hmask, hop⟩ := OpcodeRow.tests_high hr
  obtain ⟨hwf, himm⟩ := OpcodeRow.imm_build hr hw
  exact ⟨hwf, encode_eq_of_fields ((extractLsb'_of_match hw hmask).trans (hop _)) himm⟩

/-- The word of every well-formed command matches a row that builds it (R73). -/
theorem rowMatch (i : Instr) : Laws.RowMatch.Statement i := by
  cases i with
  | init => exact Laws.RowMatch.init
  | absorb b => exact Laws.RowMatch.absorb b
  | final => exact Laws.RowMatch.final
  | rddig j => exact Laws.RowMatch.rddig j
  | keybegin => exact Laws.RowMatch.keybegin
  | keybyte b => exact Laws.RowMatch.keybyte b
  | keyend => exact Laws.RowMatch.keyend
  | macbegin => exact Laws.RowMatch.macbegin
  | macend => exact Laws.RowMatch.macend
  | rdstat => exact Laws.RowMatch.rdstat

/-- Settles O1: a word decodes through the row that matches it; that row builds a well-formed command with this word, and the word
of a well-formed command matches the command's row. -/
theorem decodeIsInverseOfEncode : Obligations.DecodeIsInverseOfEncode := by
  intro w i
  rw [decode_eq_ok_iff]
  constructor
  · rintro ⟨r, hr, hw, rfl⟩
    exact OpcodeRow.encode_build hr hw
  · rintro ⟨hwf, rfl⟩
    exact rowMatch i hwf

/-- A word is reserved where it decodes to no command. -/
theorem decode_eq_error_iff {w : CommandWord} : (∃ e, decode w = .error e) ↔ ¬ ∃ i, decode w = .ok i := by
  cases h : decode w <;> simp

/-- The operation codes of the commands without operand. -/
theorem exists_op_without_operand {n : Nat} (hn : n ∈ [0x1, 0x3, 0x5, 0x7, 0x8, 0x9, 0xA]) :
    ∃ i : Instr, i.WellFormed = true ∧ i.op.toNat = n ∧ i.imm = 0 := by
  simp only [List.mem_cons, List.not_mem_nil, or_false] at hn
  rcases hn with rfl | rfl | rfl | rfl | rfl | rfl | rfl
  · exact ⟨.init, rfl, rfl, rfl⟩
  · exact ⟨.final, rfl, rfl, rfl⟩
  · exact ⟨.keybegin, rfl, rfl, rfl⟩
  · exact ⟨.keyend, rfl, rfl, rfl⟩
  · exact ⟨.macbegin, rfl, rfl, rfl⟩
  · exact ⟨.macend, rfl, rfl, rfl⟩
  · exact ⟨.rdstat, rfl, rfl, rfl⟩

/-- The operation code and the immediate of a well-formed command, as numbers. -/
theorem Instr.op_imm_cases {i : Instr} (hwf : i.WellFormed = true) :
    (i.op.toNat ∈ [0x1, 0x3, 0x5, 0x7, 0x8, 0x9, 0xA] ∧ i.imm.toNat = 0) ∨
    i.op.toNat = 2 ∨ i.op.toNat = 6 ∨ (i.op.toNat = 4 ∧ i.imm.toNat < 32) := by
  cases i <;> simp_all [Instr.op, Instr.imm, Instr.WellFormed]

/-- Every such pair of numbers is a command's. -/
theorem exists_instr_of_op_imm {n m : Nat} (hm : m < 256)
    (h : (n ∈ [0x1, 0x3, 0x5, 0x7, 0x8, 0x9, 0xA] ∧ m = 0) ∨ n = 2 ∨ n = 6 ∨ (n = 4 ∧ m < 32)) :
    ∃ i : Instr, i.WellFormed = true ∧ i.op.toNat = n ∧ i.imm.toNat = m := by
  have himm : (BitVec.ofNat 8 m).toNat = m := Nat.mod_eq_of_lt hm
  rcases h with ⟨hn, rfl⟩ | rfl | rfl | ⟨rfl, hm32⟩
  · obtain ⟨i, hwf, hop, himm0⟩ := exists_op_without_operand hn
    exact ⟨i, hwf, hop, by rw [himm0]; rfl⟩
  · exact ⟨.absorb (BitVec.ofNat 8 m), rfl, rfl, himm⟩
  · exact ⟨.keybyte (BitVec.ofNat 8 m), rfl, rfl, himm⟩
  · exact ⟨.rddig (BitVec.ofNat 8 m), by simpa [Instr.WellFormed, himm] using hm32, rfl, himm⟩

/-- The words that are a command, by their fields as numbers. -/
theorem exists_decode_iff {w : CommandWord} :
    (∃ i, decode w = .ok i) ↔ w.toNat / 256 % 16 = 0 ∧
      ((w.toNat / 4096 ∈ [0x1, 0x3, 0x5, 0x7, 0x8, 0x9, 0xA] ∧ w.toNat % 256 = 0) ∨
        w.toNat / 4096 = 2 ∨ w.toNat / 4096 = 6 ∨ (w.toNat / 4096 = 4 ∧ w.toNat % 256 < 32)) := by
  have hlt := w.isLt
  constructor
  · rintro ⟨i, hi⟩
    obtain ⟨hwf, rfl⟩ := (decodeIsInverseOfEncode w i).mp hi
    have hop := i.op.isLt
    have himm := i.imm.isLt
    have hop' : (i.op.toNat * 4096 + i.imm.toNat) / 4096 = i.op.toNat := by omega
    have himm' : (i.op.toNat * 4096 + i.imm.toNat) % 256 = i.imm.toNat := by omega
    rw [encode_toNat, hop', himm']
    exact ⟨by omega, Instr.op_imm_cases hwf⟩
  · rintro ⟨hzero, hfields⟩
    obtain ⟨i, hwf, hop, himm⟩ := exists_instr_of_op_imm (Nat.mod_lt _ (by decide)) hfields
    refine ⟨i, (decodeIsInverseOfEncode w i).mpr ⟨hwf, BitVec.eq_of_toNat_eq ?_⟩⟩
    rw [encode_toNat, hop, himm]
    omega

/-- Settles O3: the complement of the words that are a command. -/
theorem reservedWordsAreTheFourCases : Obligations.ReservedWordsAreTheFourCases := by
  intro w
  rw [decode_eq_error_iff, exists_decode_iff]
  have hlt := w.isLt
  simp only [List.mem_cons, List.not_mem_nil, or_false]
  omega

/-- Settles O4: each word is evaluated. -/
theorem specWordsDecode : Obligations.SpecWordsDecode := by
  unfold Obligations.SpecWordsDecode
  decide

end Sys2Proof
end

section
/-! PROOFS. The command-boundary invariants (spec/10_state.md R35): kept by every command, every reset and so by every step. -/
namespace Sys2Proof.Machine

/-- With `SEQ` `IDLE` the invariants speak of the bit count of an active hash and of the range of `KLEN` alone. -/
theorem boundaryInv_of_idle {s : State} (hseq : s.seq = .idle)
    (hbits : s.hactive = true → s.bitcnt.extractLsb' 0 3 = 0) (hklen : s.klen.toNat ≤ 65) : BoundaryInv s := by
  constructor
  case wholeBytes => exact hbits
  case klenRange => exact hklen
  all_goals simp [hseq]

/-- The invariants do not speak of the port. -/
theorem BoundaryInv.withPort {s : State} (hs : BoundaryInv s) (p : List PortEvent) : BoundaryInv { s with port := p } :=
  { hs with }

/-- The invariants do not speak of the responses. -/
theorem BoundaryInv.respond {s : State} (hs : BoundaryInv s) (v : Byte) : BoundaryInv (respond v s) :=
  { hs with }

/-- Settles O43: the state after reset is `IDLE` with no hash active and counts no secret byte. -/
theorem invariantsHoldAtReset : Obligations.InvariantsHoldAtReset :=
  boundaryInv_of_idle rfl (fun h => nomatch h) (by decide)

/-- The reset event leaves the invariants whatever held before: `KLEN` is at a free value of its range (R28, R210). -/
theorem boundaryInv_applyReset (s : State) : BoundaryInv (applyReset s) := by
  refine boundaryInv_of_idle rfl (fun h => nomatch h) ?_
  have hfree := (Config.freeKlen s.resets).isLt
  rw [applyReset_klen, BitVec.toNat_ofNat]
  omega

/-! ### Whole bytes -/

/-- Whole bytes counted, as a number. -/
theorem wholeBytes_iff {n : BitVec 64} : n.extractLsb' 0 3 = 0 ↔ n.toNat % 8 = 0 := by
  rw [← BitVec.toNat_inj]
  simp

/-- Counting a byte keeps the count whole (R123). -/
theorem wholeBytes_add_eight {n : BitVec 64} (h : n.extractLsb' 0 3 = 0) : (n + 8).extractLsb' 0 3 = 0 := by
  have h8 : (8 : BitVec 64).toNat = 8 := rfl
  rw [wholeBytes_iff] at h ⊢
  rw [BitVec.toNat_add, h8]
  omega

/-! ### The commands -/

/-- `ABSORB` counts one whole byte; while a key is received it is not taken. -/
theorem BoundaryInv.absorb {s : State} (hs : BoundaryInv s) (hseq : s.seq = .idle ∨ s.seq = .inner) (b : Byte) :
    BoundaryInv (absorb b s) := by
  have hkeying : s.seq ≠ .keying := by rcases hseq with h | h <;> simp [h]
  obtain ⟨hbits, hinner, -, houter, hklen, -, -, -⟩ := hs
  constructor
  case wholeBytes =>
    rw [absorb_hactive, absorb_bitcnt]
    exact fun hact => wholeBytes_add_eight (hbits hact)
  case innerOwns => simpa using hinner
  case neverOuter => simpa using houter
  case klenRange => simpa using hklen
  all_goals simp [hkeying]

/-- `KEYBEGIN` leaves an empty key and an empty block (R142). -/
theorem boundaryInv_beginKey (s : State) : BoundaryInv (beginKey s) := by
  constructor <;> simp +contextual [beginKey, Vector.getElem?_replicate]

/-- `KEYBYTE` puts the byte at the same place in `KEY` and, in the first block, in `BUF` (R143). -/
theorem BoundaryInv.keybyte {s : State} (hs : BoundaryInv s) (hseq : s.seq = .keying) (b : Byte) :
    BoundaryInv (Machine.absorb b (storeSecretByte b s)) := by
  obtain ⟨hact, hkv⟩ := hs.keyingOwns hseq
  have hklen := hs.klenRange
  have htail := hs.keyTail hseq
  have hcount := hs.secretCounted hseq
  have hsame := hs.secretInBuffer hseq
  have hnext := storeSecretByte_klen_toNat b s
  have hfill : (storeSecretByte b s).fill.toNat = s.bitcnt.toNat / 8 % 64 := by
    rw [fill_toNat, storeSecretByte_bitcnt]
  constructor
  case wholeBytes =>
    rw [absorb_bitcnt, storeSecretByte_bitcnt]
    exact fun _ => wholeBytes_add_eight (hs.wholeBytes hact)
  case innerOwns => simp [hseq]
  case keyingOwns => simp [hact, hkv]
  case neverOuter => simp [hseq]
  case klenRange =>
    rw [absorb_klen, hnext]
    split <;> omega
  case keyTail =>
    intro _ j hj hj64
    rw [absorb_klen, hnext] at hj
    rw [readByte_key, absorb_key, storeSecretByte_key_getElem?, if_neg (by split at hj <;> omega)]
    exact htail j (by split at hj <;> omega) hj64
  case secretCounted =>
    intro _ hle
    rw [absorb_klen, hnext] at hle
    have hroom : s.klen.toNat < 64 := by split at hle <;> omega
    have h8 : (8 : BitVec 64).toNat = 8 := rfl
    rw [absorb_klen, hnext, if_pos (by omega), absorb_bitcnt, storeSecretByte_bitcnt, BitVec.toNat_add, h8,
      hcount hroom.le]
    omega
  case secretInBuffer =>
    intro _ hlt j hj
    rw [absorb_klen, hnext] at hlt hj
    have hroom : s.klen.toNat < 64 := by split at hlt <;> omega
    have hplace : (storeSecretByte b s).fill.toNat = s.klen.toNat := by rw [hfill, hcount hroom.le]; omega
    rw [if_pos (by omega)] at hj
    rw [readByte_buf, readByte_key, absorb_buf_getElem?, absorb_key, storeSecretByte_key_getElem?, hplace,
      storeSecretByte_buf]
    by_cases hlast : j = s.klen.toNat
    · rw [if_pos hlast, if_pos ⟨by omega, hlast⟩]
    · rw [if_neg hlast, if_neg (fun h => hlast h.2)]
      exact hsame hroom j (by omega)

/-- `MACBEGIN` has counted the 64 bytes of the inner pad (R147). -/
theorem BoundaryInv.beginInner {s : State} (hs : BoundaryInv s) (hkv : s.kvalid = true) :
    BoundaryInv (beginInner s) := by
  have hklen := hs.klenRange
  constructor
  case wholeBytes =>
    rw [beginInner_bitcnt]
    exact fun _ => by decide
  case klenRange => simpa using hklen
  all_goals simp [hkv]

/-- Every command that completes keeps the invariants. -/
theorem BoundaryInv.exec {i : Instr} {s t : State} (hs : BoundaryInv s) (h : exec i s = .next t) : BoundaryInv t := by
  have hklen := hs.klenRange
  rcases exec_next_cases h with ⟨-, hseq, rfl⟩ | ⟨b, -, hseq, -, rfl⟩ | ⟨-, hseq, -, rfl⟩ | ⟨j, hj, -, -, rfl⟩ |
    ⟨-, -, rfl⟩ | ⟨b, -, hseq, rfl⟩ | ⟨-, -, rfl⟩ | ⟨-, -, hkv, rfl⟩ | ⟨-, -, rfl⟩ | ⟨-, rfl⟩
  · exact boundaryInv_of_idle hseq (fun _ => rfl) hklen
  · exact hs.absorb hseq b
  · exact boundaryInv_of_idle (by simpa using hseq) (fun h => nomatch h) (by simpa using hklen)
  · exact hs.respond _
  · exact boundaryInv_beginKey s
  · exact hs.keybyte hseq b
  · exact boundaryInv_of_idle rfl (fun h => nomatch h) (by simpa using hklen)
  · exact hs.beginInner hkv
  · exact boundaryInv_of_idle rfl (fun h => nomatch h) (by simpa using hklen)
  · exact hs.respond _

/-- Settles O44: nothing on the port, the reset event, a command cut short, a command. -/
theorem stepKeepsInvariants : Obligations.StepKeepsInvariants := by
  intro s t hs h
  rcases step_next_cases h with ⟨-, rfl⟩ | ⟨rest, -, rfl⟩ | ⟨w, rest, i, u, -, -, -, rfl⟩ | ⟨w, rest, i, -, -, hi⟩
  · exact hs
  · exact boundaryInv_applyReset _
  · exact boundaryInv_applyReset _
  · exact (hs.withPort rest).exec hi

end Sys2Proof.Machine
end

section
/-! PROOFS. What the host cannot see (spec/10_state.md R35 item 4, R39): states that agree on every register that holds a value stay so
under every command. -/
namespace Sys2Proof.Machine

/-- `RDDIG` (R160): the encoding first, then the flag. -/
theorem exec_rddig_eq (j : Byte) (s : State) :
    exec (.rddig j) s =
      if hj : j.toNat < 32 then
        if s.dvalid = true then .next (respond s.dout[j.toNat] s) else .refused .digestNotValid
      else .refused (.reservedEncoding (encode (.rddig j))) := by
  by_cases hj : j.toNat < 32
  · simp [exec, execRddig, State.digestOperand, require, hj]
  · simp [exec, execRddig, State.digestOperand, hj]

/-! ### Outcomes -/

/-- Two outcomes the host cannot tell apart are two next states or one refusal: no outcome is a fault. -/
theorem sameOutcome_iff {a b : Host.Outcome State Fault Refusal} :
    SameOutcome a b ↔
      (∃ s t, a = .next s ∧ b = .next t ∧ SameForHost s t) ∨ ∃ r, a = .refused r ∧ b = .refused r := by
  cases a with
  | fault f => cases f
  | next s =>
    cases b with
    | fault f => cases f
    | next t => simp [SameOutcome]
    | refused r => simp [SameOutcome]
  | refused r =>
    cases b with
    | fault f => cases f
    | next t => simp [SameOutcome]
    | refused r' => simp [SameOutcome, eq_comm]

/-- A test with the same answer on both sides. -/
theorem sameOutcome_ite {c : Prop} [Decidable c] {a b a' b' : Host.Outcome State Fault Refusal}
    (hpos : c → SameOutcome a a') (hneg : ¬ c → SameOutcome b b') :
    SameOutcome (if c then a else b) (if c then a' else b') := by
  by_cases h : c
  · simpa [h] using hpos h
  · simpa [h] using hneg h

/-- A contract test that fails on both sides. -/
theorem sameOutcome_refused (r : Refusal) : SameOutcome (.refused r) (.refused r) := rfl

/-! ### The shared operations -/

section
variable {s t : State}

/-- FILL is a view of the bit count (R25). -/
theorem SameForHost.fill (h : SameForHost s t) (hact : s.hactive = true) : s.fill = t.fill := by
  obtain ⟨-, hbitcnt, -⟩ := h.hash hact
  simp [State.fill, hbitcnt]

theorem SameForHost.pendingBytes (h : SameForHost s t) (hact : s.hactive = true) : pendingBytes s = pendingBytes t := by
  obtain ⟨-, -, hbuf⟩ := h.hash hact
  have hfill := h.fill hact
  refine List.ext_getElem? fun j => ?_
  simp only [Machine.pendingBytes, List.getElem?_take, Vector.getElem?_toList, ← hfill]
  split
  · next hj => exact hbuf j hj
  · rfl

/-- Finishing the hash reads nothing that holds no value. -/
theorem SameForHost.digestFrom (h : SameForHost s t) (hact : s.hactive = true) : digestFrom s = digestFrom t := by
  obtain ⟨hh, hbitcnt, -⟩ := h.hash hact
  rw [Machine.digestFrom, Machine.digestFrom, h.pendingBytes hact, h.fill hact, hh, hbitcnt]

/-- `STATUS` is made of the flags and `SEQ` (R34). -/
theorem SameForHost.status (h : SameForHost s t) : s.status = t.status := by
  simp [State.status, h.hactive, h.dvalid, h.kvalid, h.seq]

theorem SameForHost.respond (h : SameForHost s t) (v : Byte) : SameForHost (respond v s) (respond v t) :=
  { h with rsp := congrArg (· ++ [v]) h.rsp }

/-- `init()` gives every register of the hash a value (R121). -/
theorem SameForHost.initHash (h : SameForHost s t) : SameForHost (initHash s) (initHash t) :=
  { h with
    hactive := rfl
    hash := fun _ => ⟨rfl, rfl, fun _ _ => rfl⟩ }

/-- Outside `KEYING` no register takes its value from `SEQ`. -/
theorem SameForHost.withSeq (h : SameForHost s t) {q : Seq} (hq : q ≠ .keying) :
    SameForHost { s with seq := q } { t with seq := q } :=
  { h with
    seq := rfl
    keying := fun e => absurd e hq }

/-- `H` after a byte: the block is read when it is full, and only then (R123). -/
theorem absorb_h (b : Byte) (s : State) :
    (absorb b s).h = if s.fill.toNat = 63 then compress s.h (absorb b s).buf else s.h := by
  rw [absorb_eq]

theorem absorb_fill_toNat (b : Byte) (s : State) : (absorb b s).fill.toNat = (s.fill.toNat + 1) % 64 := by
  rw [← fill_countByte_toNat, State.fill, absorb_bitcnt, State.fill, countByte_bitcnt]

/-- A byte absorbed: `BUF` agrees up to the place it is put, which is the whole block where the block is transformed. -/
theorem SameForHost.absorb (h : SameForHost s t) (hact : s.hactive = true) (b : Byte) :
    SameForHost (absorb b s) (absorb b t) := by
  obtain ⟨hh, hbitcnt, hbuf⟩ := h.hash hact
  have hfill := h.fill hact
  have hstored : ∀ j, j < s.fill.toNat + 1 → (Machine.absorb b s).buf[j]? = (Machine.absorb b t).buf[j]? := by
    intro j hj
    rw [absorb_buf_getElem?, absorb_buf_getElem?, ← hfill]
    split
    · rfl
    · exact hbuf j (by omega)
  have hblock : s.fill.toNat = 63 → (Machine.absorb b s).buf = (Machine.absorb b t).buf := by
    intro h63
    refine Vector.ext fun j hj => ?_
    simpa [hj] using hstored j (by omega)
  constructor
  case hash =>
    refine fun _ => ⟨?_, ?_, fun j hj => ?_⟩
    · rw [absorb_h, absorb_h, ← hfill, hh]
      split
      · next h63 => rw [hblock h63]
      · rfl
    · rw [absorb_bitcnt, absorb_bitcnt, hbitcnt]
    · rw [absorb_fill_toNat] at hj
      exact hstored j (by have := Nat.mod_le (s.fill.toNat + 1) 64; omega)
  case hactive => simpa using h.hactive
  case dvalid => simpa using h.dvalid
  case kvalid => simpa using h.kvalid
  case seq => simpa using h.seq
  case rsp => simpa using h.rsp
  case digest => simpa using h.digest
  case key => simpa using h.key
  case keying => simpa using h.keying

theorem SameForHost.absorbAll (h : SameForHost s t) (hact : s.hactive = true) (bs : List Byte) :
    SameForHost (absorbAll bs s) (absorbAll bs t) := by
  induction bs generalizing s t with
  | nil => exact h
  | cons b bs ih => exact ih (h.absorb hact b) (by simpa using hact)

/-- A secret byte stored: while a key is received, `KEY` and `KLEN` hold values (R143). -/
theorem SameForHost.storeSecretByte (h : SameForHost s t) (hseq : s.seq = .keying) (b : Byte) :
    SameForHost (storeSecretByte b s) (storeSecretByte b t) := by
  obtain ⟨hkey, hklen⟩ := h.keying hseq
  rw [storeSecretByte_eq, storeSecretByte_eq, hkey, hklen]
  exact { h with
    key := fun _ => rfl
    keying := fun _ => ⟨rfl, rfl⟩ }

/-- `KEYBEGIN` gives values to the key, its count and the hash (R142). -/
theorem SameForHost.beginKey (h : SameForHost s t) : SameForHost (beginKey s) (beginKey t) :=
  { h with
    hactive := rfl
    kvalid := rfl
    seq := rfl
    hash := fun _ => ⟨rfl, rfl, fun _ _ => rfl⟩
    key := fun _ => rfl
    keying := fun _ => ⟨rfl, rfl⟩ }

/-- The key that `KEYEND` leaves is made of registers that hold values while a key is received (R144). -/
theorem SameForHost.hashLongKey_key (h : SameForHost s t) (hseq : s.seq = .keying) (hact : s.hactive = true) :
    (hashLongKey s).key = (hashLongKey t).key := by
  obtain ⟨hkey, hklen⟩ := h.keying hseq
  rw [Machine.hashLongKey_key, Machine.hashLongKey_key, hkey, hklen, h.digestFrom hact]

theorem SameForHost.endKey (h : SameForHost s t) (hseq : s.seq = .keying) (hact : s.hactive = true) :
    SameForHost { hashLongKey s with hactive := false, kvalid := true, seq := .idle }
      { hashLongKey t with hactive := false, kvalid := true, seq := .idle } := by
  constructor
  case key => exact fun _ => h.hashLongKey_key hseq hact
  case dvalid => simpa using h.dvalid
  case rsp => simpa using h.rsp
  case digest => simpa using h.digest
  all_goals simp

/-- `MACBEGIN` reads the complete key and begins the hash (R147). -/
theorem SameForHost.beginInner (h : SameForHost s t) (hkv : s.kvalid = true) :
    SameForHost (beginInner s) (beginInner t) := by
  rw [Machine.beginInner, Machine.beginInner, h.key hkv]
  exact SameForHost.absorbAll (h.initHash.withSeq (by decide)) rfl _

/-- A delivery does not see `SEQ`. -/
theorem deliver_withSeq (d : Vector Byte 32) (s : State) (q : Seq) :
    { deliver d s with seq := q } = deliver d { s with seq := q } := rfl

/-- `FINAL` and `MACEND` leave a digest that holds a value, no active hash, and `SEQ` `IDLE` (R127, R148). -/
theorem SameForHost.deliver (h : SameForHost s t) (d : Vector Byte 32) {u v : State}
    (hu : u.seq = .idle ∧ u.kvalid = s.kvalid ∧ u.rsp = s.rsp ∧ u.key = s.key)
    (hv : v.seq = .idle ∧ v.kvalid = t.kvalid ∧ v.rsp = t.rsp ∧ v.key = t.key) :
    SameForHost (deliver d u) (deliver d v) := by
  obtain ⟨huseq, hukv, hursp, hukey⟩ := hu
  obtain ⟨hvseq, hvkv, hvrsp, hvkey⟩ := hv
  constructor
  case kvalid => simpa [hukv, hvkv] using h.kvalid
  case rsp => simpa [hursp, hvrsp] using h.rsp
  case key => simpa [hukv, hukey, hvkey] using h.key
  all_goals simp [huseq, hvseq]

end

/-! ### Every command -/

/-- Settles O45: the contracts test flags and `SEQ` alone; what a command then reads holds a value by the invariants, and what it
writes agrees. -/
theorem valuelessRegistersAreNeverSeen : Obligations.ValuelessRegistersAreNeverSeen := by
  intro i s t hs _ h
  cases i with
  | init =>
    rw [exec_init_eq, exec_init_eq, ← h.seq]
    exact sameOutcome_ite (fun _ => h.initHash) fun _ => sameOutcome_refused _
  | absorb b =>
    rw [exec_absorb_eq, exec_absorb_eq, ← h.seq, ← h.hactive]
    exact sameOutcome_ite (fun _ => sameOutcome_ite (fun hact => h.absorb hact b) fun _ => sameOutcome_refused _)
      fun _ => sameOutcome_refused _
  | final =>
    rw [exec_final_eq, exec_final_eq, ← h.seq, ← h.hactive]
    refine sameOutcome_ite (fun hseq => sameOutcome_ite (fun hact => ?_) fun _ => sameOutcome_refused _)
      fun _ => sameOutcome_refused _
    rw [← h.digestFrom hact]
    exact h.deliver _ (by simpa using hseq) (by simpa [h.seq] using hseq)
  | rddig j =>
    rw [exec_rddig_eq, exec_rddig_eq]
    by_cases hj : j.toNat < 32
    · rw [dif_pos hj, dif_pos hj, ← h.dvalid]
      refine sameOutcome_ite (fun hdv => ?_) fun _ => sameOutcome_refused _
      rw [← h.digest hdv]
      exact h.respond _
    · rw [dif_neg hj, dif_neg hj]
      exact sameOutcome_refused _
  | keybegin =>
    rw [exec_keybegin_eq, exec_keybegin_eq, ← h.seq]
    exact sameOutcome_ite (fun _ => h.beginKey) fun _ => sameOutcome_refused _
  | keybyte b =>
    rw [exec_keybyte_eq, exec_keybyte_eq, ← h.seq]
    refine sameOutcome_ite (fun hseq => ?_) fun _ => sameOutcome_refused _
    obtain ⟨hact, -⟩ := hs.keyingOwns hseq
    exact (h.storeSecretByte hseq b).absorb (by simpa using hact) b
  | keyend =>
    rw [exec_keyend_eq, exec_keyend_eq, ← h.seq]
    refine sameOutcome_ite (fun hseq => ?_) fun _ => sameOutcome_refused _
    obtain ⟨hact, -⟩ := hs.keyingOwns hseq
    exact h.endKey hseq hact
  | macbegin =>
    rw [exec_macbegin_eq, exec_macbegin_eq, ← h.seq, ← h.kvalid]
    exact sameOutcome_ite (fun _ => sameOutcome_ite (fun hkv => h.beginInner hkv) fun _ => sameOutcome_refused _)
      fun _ => sameOutcome_refused _
  | macend =>
    rw [exec_macend_eq, exec_macend_eq, ← h.seq]
    refine sameOutcome_ite (fun hseq => ?_) fun _ => sameOutcome_refused _
    obtain ⟨hact, hkv⟩ := hs.innerOwns hseq
    rw [← h.digestFrom hact, ← h.key hkv]
    rw [deliver_withSeq, deliver_withSeq]
    exact h.deliver _ (by simp) (by simp)
  | rdstat =>
    rw [exec_rdstat_eq, exec_rdstat_eq, ← h.status]
    exact h.respond _

/-! ### Runs -/

/-- A run keeps what one command keeps. -/
theorem sameOutcome_runCommands (cmds : List Instr) {s t : State} (hs : BoundaryInv s) (ht : BoundaryInv t)
    (h : SameForHost s t) : SameOutcome (runCommands cmds s) (runCommands cmds t) := by
  induction cmds generalizing s t with
  | nil => exact h
  | cons i rest ih =>
    rcases sameOutcome_iff.mp (valuelessRegistersAreNeverSeen i s t hs ht h) with ⟨u, v, hu, hv, huv⟩ | ⟨r, hu, hv⟩
    · rw [runCommands_cons_next hu, runCommands_cons_next hv]
      exact ih (hs.exec hu) (ht.exec hv) huv
    · rw [runCommands_cons_refused hu, runCommands_cons_refused hv]
      exact sameOutcome_refused r

/-- Settles O46: with the flags clear no data register holds a value, so the two states are the same for the host. -/
theorem resetDataValuesNeverShow : Obligations.ResetDataValuesNeverShow := by
  intro cmds s t hsact hsdv hskv hsseq hsklen htact htdv htkv htseq htklen hrsp
  have hs : BoundaryInv s := boundaryInv_of_idle hsseq (by simp [hsact]) hsklen
  have ht : BoundaryInv t := boundaryInv_of_idle htseq (by simp [htact]) htklen
  have h : SameForHost s t := by
    constructor
    case rsp => exact hrsp
    all_goals simp [hsact, hsdv, hskv, hsseq, htact, htdv, htkv, htseq]
  rcases sameOutcome_iff.mp (sameOutcome_runCommands cmds hs ht h) with ⟨u, v, hu, hv, huv⟩ | hrefused
  · exact .inl ⟨u, v, hu, hv, huv.rsp, huv.status⟩
  · exact .inr hrefused

end Sys2Proof.Machine
end

section
/-! PROOFS. Steps, runs and reset (spec/20_memory.md section 4, spec/60_exceptions.md, spec/70_reset_and_hazards.md): the violation table
against the commands' contracts, then what the port sees. -/
namespace Sys2Proof.Machine

/-! ### The violation table -/

/-- A command is refused under the label the table has for it, or completes where the table has none (R192, R193). -/
theorem exec_violation (i : Instr) {s : State} (hs : s.seq ≠ .outer) :
    (∃ r, violation i s = some r ∧ exec i s = .refused r) ∨ (violation i s = none ∧ ∃ t, exec i s = .next t) := by
  cases i with
  | init => by_cases hseq : s.seq = .idle <;> simp [violation, exec_init_eq, hseq]
  | absorb b =>
    cases hseq : s.seq with
    | idle => cases hact : s.hactive <;> simp [violation, exec_absorb_eq, hseq, hact]
    | keying => simp [violation, exec_absorb_eq, hseq]
    | inner => cases hact : s.hactive <;> simp [violation, exec_absorb_eq, hseq, hact]
    | outer => exact absurd hseq hs
  | final =>
    by_cases hseq : s.seq = .idle
    · cases hact : s.hactive <;> simp [violation, exec_final_eq, hseq, hact]
    · simp [violation, exec_final_eq, hseq]
  | rddig j =>
    by_cases hj : j.toNat < 32
    · have hindex : ¬ 32 ≤ j.toNat := by omega
      cases hdv : s.dvalid <;> simp [violation, exec_rddig_eq, hj, hindex, hdv]
    · have hindex : 32 ≤ j.toNat := by omega
      simp [violation, exec_rddig_eq, hj, hindex]
  | keybegin => by_cases hseq : s.seq = .idle <;> simp [violation, exec_keybegin_eq, hseq]
  | keybyte b => by_cases hseq : s.seq = .keying <;> simp [violation, exec_keybyte_eq, hseq]
  | keyend => by_cases hseq : s.seq = .keying <;> simp [violation, exec_keyend_eq, hseq]
  | macbegin =>
    by_cases hseq : s.seq = .idle
    · cases hkv : s.kvalid <;> simp [violation, exec_macbegin_eq, hseq, hkv]
    · simp [violation, exec_macbegin_eq, hseq]
  | macend => by_cases hseq : s.seq = .inner <;> simp [violation, exec_macend_eq, hseq]
  | rdstat => simp [violation, exec_rdstat_eq]

theorem exec_eq_refused_iff (i : Instr) {s : State} (hs : s.seq ≠ .outer) (r : Refusal) :
    exec i s = .refused r ↔ violation i s = some r := by
  rcases exec_violation i hs with ⟨r', hv, he⟩ | ⟨hv, t, he⟩ <;> simp [hv, he]

theorem exec_completes_iff (i : Instr) {s : State} (hs : s.seq ≠ .outer) :
    (∃ t, exec i s = .next t) ↔ violation i s = none := by
  rcases exec_violation i hs with ⟨r', hv, he⟩ | ⟨hv, t, he⟩ <;> simp [hv, he]

/-- The table does not look at the port. -/
theorem violation_withPort (i : Instr) (s : State) (p : List PortEvent) :
    violation i { s with port := p } = violation i s := by
  cases i <;> rfl

/-- `INIT` starts from `IDLE`, `KEYEND` ends a key derivation, `MACEND` ends a MAC: the host is never stuck. -/
theorem exists_legal_command {s : State} (hs : s.seq ≠ .outer) :
    ∃ i ∈ [Instr.init, .keybegin, .keybyte 0, .keyend, .macend], ∃ t, exec i s = .next t := by
  cases hseq : s.seq with
  | idle => exact ⟨.init, by simp, by simp [exec_init_eq, hseq]⟩
  | keying => exact ⟨.keyend, by simp, by simp [exec_keyend_eq, hseq]⟩
  | inner => exact ⟨.macend, by simp, by simp [exec_macend_eq, hseq]⟩
  | outer => exact absurd hseq hs

/-- Settles O39: a reserved word by decoding, a command by its row of the table. -/
theorem violationTable : Obligations.ViolationTable := by
  refine ⟨fun w s rest hport hnone => ?_, fun i s hs => ?_, fun s => ⟨_, exec_rdstat_eq s⟩,
    fun s hs => exists_legal_command hs⟩
  · cases hd : decode w with
    | ok i => exact absurd hd (hnone i)
    | error e => exact step_reserved hport hd
  · exact ⟨exec_eq_refused_iff i hs, exec_completes_iff i hs⟩

/-! ### Steps -/

/-- Settles O6: by decoding; the word of a well-formed command decodes to it. -/
theorem stepRunsDecodedCommand : Obligations.StepRunsDecodedCommand := by
  refine fun s w rest hport => ⟨fun i hd => step_command hport hd, fun i hwf hw => ?_⟩
  exact step_command hport ((decodeIsInverseOfEncode w i).mpr ⟨hwf, hw⟩)

/-- Settles O7: decoding comes first and depends on no state. -/
theorem reservedWordRefusedFirst : Obligations.ReservedWordRefusedFirst :=
  fun _ _ _ _ hport hd => step_reserved hport hd

/-! ### The port beside the engine -/

/-- An absorbed byte neither reads nor writes the two channels of the port. -/
theorem absorb_withChannels (b : Byte) (s : State) (p : List PortEvent) (r : List Byte) :
    absorb b { s with port := p, rsp := r } = { absorb b s with port := p, rsp := r } := by
  rw [absorb_eq, absorb_eq]
  rfl

theorem absorb_withPort (b : Byte) (s : State) (p : List PortEvent) :
    absorb b { s with port := p } = { absorb b s with port := p } := by
  rw [absorb_withChannels b s p s.rsp, ← absorb_rsp b s]

theorem absorbAll_withPort (bs : List Byte) (s : State) (p : List PortEvent) :
    absorbAll bs { s with port := p } = { absorbAll bs s with port := p } := by
  induction bs generalizing s with
  | nil => rfl
  | cons b bs ih => rw [absorbAll_cons, absorb_withPort, ih, absorbAll_cons]

theorem storeSecretByte_withPort (b : Byte) (s : State) (p : List PortEvent) :
    storeSecretByte b { s with port := p } = { storeSecretByte b s with port := p } := by
  rw [storeSecretByte_eq, storeSecretByte_eq]

theorem finalize_withPort (s : State) (p : List PortEvent) :
    finalize { s with port := p } = { finalize s with port := p } := by
  by_cases hfill : s.fill.toNat ≤ 55
  · rw [finalize_short (s := s) hfill, finalize_short (s := { s with port := p }) hfill]
    rfl
  · have hfill' : 56 ≤ s.fill.toNat := by omega
    rw [finalize_long (s := s) hfill', finalize_long (s := { s with port := p }) hfill']
    rfl

theorem hashLongKey_withPort (s : State) (p : List PortEvent) :
    hashLongKey { s with port := p } = { hashLongKey s with port := p } := by
  simp only [hashLongKey, finalize_withPort]
  split <;> rfl

theorem beginInner_withPort (s : State) (p : List PortEvent) :
    beginInner { s with port := p } = { beginInner s with port := p } :=
  absorbAll_withPort (ipad s.key) { initHash s with seq := .inner } p

theorem outerPass_withPort (inner : Vector Byte 32) (s : State) (p : List PortEvent) :
    outerPass inner { s with port := p } = { outerPass inner s with port := p } := by
  have hinit : initHash { s with port := p, seq := .outer } = { initHash { s with seq := .outer } with port := p } := rfl
  simp only [outerPass, hinit, absorbAll_withPort, finalize_withPort]

/-- An outcome with another list of events to come. -/
def outcomeWithPort (p : List PortEvent) : Host.Outcome State Fault Refusal → Host.Outcome State Fault Refusal
  | .next t => .next { t with port := p }
  | .fault f => .fault f
  | .refused r => .refused r

/-- A command neither reads nor writes what the host has still to drive. -/
theorem exec_withPort (i : Instr) (s : State) (p : List PortEvent) :
    exec i { s with port := p } = outcomeWithPort p (exec i s) := by
  cases i with
  | init =>
    simp only [exec_init_eq]
    split <;> rfl
  | absorb b =>
    simp only [exec_absorb_eq, absorb_withPort]
    split
    · split <;> rfl
    · rfl
  | final =>
    simp only [exec_final_eq, finalize_withPort]
    split
    · split <;> rfl
    · rfl
  | rddig j =>
    simp only [exec_rddig_eq]
    split
    · split <;> rfl
    · rfl
  | keybegin =>
    simp only [exec_keybegin_eq]
    split <;> rfl
  | keybyte b =>
    simp only [exec_keybyte_eq, storeSecretByte_withPort, absorb_withPort]
    split <;> rfl
  | keyend =>
    simp only [exec_keyend_eq, hashLongKey_withPort]
    split <;> rfl
  | macbegin =>
    simp only [exec_macbegin_eq, beginInner_withPort]
    split
    · split <;> rfl
    · rfl
  | macend =>
    simp only [exec_macend_eq, finalize_withPort, outerPass_withPort]
    split <;> rfl
  | rdstat => rfl

/-- A step that completes, at the front of a run of steps. -/
theorem runSteps_succ_next {s t : State} (h : step s = .next t) (k : Nat) : runSteps (k + 1) s = runSteps k t := by
  simp [runSteps, h]

theorem runSteps_succ_refused {s : State} {r : Refusal} (h : step s = .refused r) (k : Nat) :
    runSteps (k + 1) s = .refused r := by
  simp [runSteps, h]

/-- Settles O8, by induction on the commands: a step takes one word off the port and is `exec` of the command at the front. -/
theorem portRunIsCommandRun : Obligations.PortRunIsCommandRun := by
  intro cmds
  induction cmds with
  | nil =>
    rintro s rest - hport
    obtain rfl : s.port = rest := hport
    rfl
  | cons i cmds ih =>
    intro s rest hwf hport
    obtain ⟨hi, hcmds⟩ := List.forall_mem_cons.mp hwf
    have hd : decode (encode i) = .ok i := (decodeIsInverseOfEncode _ i).mpr ⟨hi, rfl⟩
    have hstep : step s = outcomeWithPort (asPort cmds ++ rest) (exec i s) :=
      (step_command hport hd).trans (exec_withPort i s _)
    have hexec : exec i { s with port := rest } = outcomeWithPort rest (exec i s) := exec_withPort i s rest
    cases he : exec i s with
    | next u =>
      rw [he] at hstep hexec
      rw [List.length_cons, runSteps_succ_next hstep, runCommands_cons_next hexec]
      exact ih { u with port := asPort cmds ++ rest } rest hcmds rfl
    | fault f => cases f
    | refused r =>
      rw [he] at hstep hexec
      rw [List.length_cons, runSteps_succ_refused hstep, runCommands_cons_refused hexec]

/-! ### Reset -/

/-- Settles O9: the fields `State.reset` names. -/
theorem resetStateHasFlagsClear : Obligations.ResetStateHasFlagsClear :=
  ⟨rfl, rfl, rfl, rfl, by decide⟩

/-- Settles O10: the reset event by itself and under a command the table allows; under any other word the step refuses as it does
without a reset. -/
theorem resetEventClearsFlags : Obligations.ResetEventClearsFlags := by
  refine ⟨fun s rest hevent => ?_, fun s w rest hport => ⟨fun e hd => step_resetDuring_reserved hport hd, ?_⟩⟩
  · refine ⟨applyReset { s with port := rest }, ?_, rfl, rfl, rfl, rfl, rfl, rfl⟩
    rcases hevent with hport | ⟨w, i, hport, hd, hs, hv⟩
    · exact step_reset hport
    · rw [← violation_withPort i s rest] at hv
      obtain ⟨t, ht⟩ := (exec_completes_iff i (s := { s with port := rest }) hs).mpr hv
      exact step_resetDuring hport hd ht
  · intro i r hd hs hv
    rw [← violation_withPort i s rest] at hv
    exact step_resetDuring_refused hport hd ((exec_eq_refused_iff i (s := { s with port := rest }) hs r).mpr hv)

/-- Settles O11: each command by its contract, with the flags clear and `SEQ` `IDLE`. -/
theorem firstCommandsAfterReset : Obligations.FirstCommandsAfterReset := by
  intro s hact hdv hkv hseq
  have hstatus : s.status = 0x00 := by simp [State.status, Seq.code, hact, hdv, hkv, hseq]
  refine ⟨?init, ?keybegin, ?rdstat, fun b => ?absorb, ?final, fun j hj => ?rddig, fun b => ?keybyte, ?keyend, ?macend,
    ?macbegin⟩
  case init => simp [exec_init_eq, hseq]
  case keybegin => simp [exec_keybegin_eq, hseq]
  case rdstat => rw [exec_rdstat_eq, hstatus, respond]
  case absorb => simp [exec_absorb_eq, hseq, hact]
  case final => simp [exec_final_eq, hseq, hact]
  case rddig => simp [exec_rddig_eq, hj, hdv]
  case keybyte => simp [exec_keybyte_eq, hseq]
  case keyend => simp [exec_keyend_eq, hseq]
  case macend => simp [exec_macend_eq, hseq]
  case macbegin => simp [exec_macbegin_eq, hseq, hkv]

end Sys2Proof.Machine
end

section
/-! PROOFS. Who writes what (spec/10_state.md section 10): registers and flags by command, and what `KEY`, `KLEN` and the hash state can
show. -/
namespace Sys2Proof.Machine

/-- Settles O41: what each command leaves, over the ways a command completes. -/
theorem registersWrittenOnlyByTheirCommands : Obligations.RegistersWrittenOnlyByTheirCommands := by
  intro i s t h
  rcases exec_next_cases h with ⟨rfl, -, rfl⟩ | ⟨b, rfl, -, -, rfl⟩ | ⟨rfl, -, -, rfl⟩ | ⟨j, hj, rfl, -, rfl⟩ |
    ⟨rfl, -, rfl⟩ | ⟨b, rfl, -, rfl⟩ | ⟨rfl, -, rfl⟩ | ⟨rfl, -, -, rfl⟩ | ⟨rfl, -, rfl⟩ | ⟨rfl, rfl⟩ <;>
  simp +contextual

/-- Settles O42: `KEY` and `KVALID` change under `KEYBEGIN`, `KEYBYTE` and `KEYEND` alone, and the last two run while a key is
received, when by the invariants there is no complete key. -/
theorem completeKeyIsImmutable : Obligations.CompleteKeyIsImmutable := by
  intro i s t hs hkv hne h
  have hkeying : s.seq ≠ .keying := fun hseq => by simp [(hs.keyingOwns hseq).2] at hkv
  have hkeybyte : ∀ b, i ≠ .keybyte b := by
    rintro b rfl
    simp [exec_keybyte_eq, hkeying] at h
  have hkeyend : i ≠ .keyend := by
    rintro rfl
    simp [exec_keyend_eq, hkeying] at h
  have hothers : i ∉ [Instr.keybegin, .keyend] := by simp [hne, hkeyend]
  obtain ⟨hkey, -, -, hkvalid, -⟩ := registersWrittenOnlyByTheirCommands i s t h
  exact ⟨hkey hothers hkeybyte, (hkvalid hothers).trans hkv⟩

/-- Settles O47: the contracts test flags and `SEQ` alone, and but for `FINAL` and `MACEND` no command writes what it read of these
registers to `DOUT` or the response port. -/
theorem secretsReachHostOnlyThroughDigests : Obligations.SecretsReachHostOnlyThroughDigests := by
  intro i s key klen h buf bitcnt hfinal hmacend
  cases i with
  | init => by_cases hseq : s.seq = .idle <;> simp [exec_init_eq, hseq]
  | absorb b =>
    by_cases hseq : s.seq = .idle ∨ s.seq = .inner
    · cases hact : s.hactive <;> simp [exec_absorb_eq, hseq, hact]
    · simp [exec_absorb_eq, hseq]
  | final => exact absurd rfl hfinal
  | rddig j =>
    by_cases hj : j.toNat < 32
    · cases hdv : s.dvalid <;> simp [exec_rddig_eq, hj, hdv]
    · simp [exec_rddig_eq, hj]
  | keybegin => by_cases hseq : s.seq = .idle <;> simp [exec_keybegin_eq, beginKey, hseq]
  | keybyte b => by_cases hseq : s.seq = .keying <;> simp [exec_keybyte_eq, hseq]
  | keyend => by_cases hseq : s.seq = .keying <;> simp [exec_keyend_eq, hseq]
  | macbegin =>
    by_cases hseq : s.seq = .idle
    · cases hkv : s.kvalid <;> simp [exec_macbegin_eq, hseq, hkv]
    · simp [exec_macbegin_eq, hseq]
  | macend => exact absurd rfl hmacend
  | rdstat => simp [exec_rdstat_eq, State.status]

/-- Settles O36: `RDDIG` by its contract; a word with an index of 32 or more decodes to no command, since it is the word of an
ill-formed one; `DOUT` and `DVALID` by the access table. -/
theorem rddigReturnsDigestByte : Obligations.RddigReturnsDigestByte := by
  refine ⟨fun i s t hfinal hmacend h => ?_, fun j s => ⟨?_, fun hj => ⟨?_, ?_⟩, fun hj => ⟨fun hdv => ?_, fun hdv => ?_⟩⟩⟩
  · obtain ⟨-, -, hdigest, -⟩ := registersWrittenOnlyByTheirCommands i s t h
    exact hdigest (by simp [hfinal, hmacend])
  · simp [encode_toNat, Instr.op, Instr.imm]
  · have hindex := j.isLt
    have hword : (encode (.rddig j)).toNat = 4 * 4096 + j.toNat := encode_toNat (.rddig j)
    exact (reservedWordsAreTheFourCases _).mpr (.inr (.inr (.inr (by omega))))
  · simp [exec_rddig_eq, hj]
  · simp [exec_rddig_eq, hj, hdv]
  · exact exec_rddig_of_dvalid hj hdv

/-! ### Reads between bytes -/

/-- The commands of a message with reads between its bytes. -/
def IsAbsorbOrRead (i : Instr) : Prop := (∃ b, i = .absorb b) ∨ (∃ j, i = .rddig j) ∨ i = .rdstat

/-- `ABSORB` neither reads nor writes the responses. -/
theorem absorb_withRsp (b : Byte) (s : State) (r : List Byte) :
    absorb b { s with rsp := r } = { absorb b s with rsp := r } := by
  rw [absorb_withChannels b s s.port r, ← absorb_port b s]

/-- A read command changes the responses and nothing else. -/
theorem withRsp_of_read_next {i : Instr} (hi : (∃ j, i = .rddig j) ∨ i = .rdstat) {s t : State} (h : exec i s = .next t)
    (r : List Byte) : { t with rsp := r } = { s with rsp := r } := by
  rcases hi with ⟨j, rfl⟩ | rfl
  · obtain ⟨hj, -, rfl⟩ : ∃ hj : j.toNat < 32, s.dvalid = true ∧ t = respond s.dout[j.toNat] s := by
      simpa using exec_next_cases h
    rfl
  · obtain rfl : respond s.status s = t := by simpa [exec_rdstat_eq] using h
    rfl

/-- A good run of such commands, with the reads left out and any responses before it. -/
theorem runCommands_filter_isAbsorb {cmds : List Instr} {s t : State} (hcmds : ∀ i ∈ cmds, IsAbsorbOrRead i)
    (h : runCommands cmds s = .next t) (r : List Byte) :
    runCommands (cmds.filter fun i => i.isAbsorb) { s with rsp := r } = .next { t with rsp := r } := by
  induction cmds generalizing s with
  | nil =>
    obtain rfl : s = t := by simpa using h
    rfl
  | cons i rest ih =>
    obtain ⟨hi, hrest⟩ := List.forall_mem_cons.mp hcmds
    cases he : exec i s with
    | fault f => cases f
    | refused r' =>
      rw [runCommands_cons_refused he] at h
      cases h
    | next u =>
      rw [runCommands_cons_next he] at h
      rcases hi with ⟨b, rfl⟩ | hread
      · obtain ⟨hseq, hact, rfl⟩ : (s.seq = .idle ∨ s.seq = .inner) ∧ s.hactive = true ∧ u = absorb b s := by
          simpa using exec_next_cases he
        have habsorb : exec (.absorb b) { s with rsp := r } = .next { absorb b s with rsp := r } := by
          rw [exec_absorb_eq, if_pos hseq, if_pos hact, absorb_withRsp]
        exact (runCommands_cons_next habsorb _).trans (ih hrest h)
      · have hsame : { u with rsp := r } = { s with rsp := r } := withRsp_of_read_next hread he r
        rw [← hsame, List.filter_cons_of_neg (by rcases hread with ⟨j, rfl⟩ | rfl <;> simp [Instr.isAbsorb, Instr.op])]
        exact ih hrest h

/-- Settles O23: the run without the reads, with the responses of the start put back. -/
theorem readsBetweenBytesChangeNothing : Obligations.ReadsBetweenBytesChangeNothing :=
  fun _ s _ hcmds h => ⟨_, runCommands_filter_isAbsorb hcmds h s.rsp, rfl⟩

end Sys2Proof.Machine
end

section
/-! PROOFS. A whole `MAC` (spec/42_hmac_commands.md R151 to R153), `sign` over it (spec/48_host_software.md R172), and the two published
digests (spec/95_test_vectors.md part 1). -/
namespace Sys2Proof.Machine

/-- The inner digest: what `MACBEGIN` and the message have absorbed is the inner pad and the message (R151). -/
theorem digestFrom_absorbAll_beginInner (m : List Byte) (s : State) :
    digestFrom (absorbAll m (beginInner s)) = sha256 (ipad s.key ++ m) := by
  have hbegin : beginInner s = absorbAll (ipad s.key) (initHash { s with seq := .inner }) := rfl
  rw [hbegin, ← absorbAll_append, digestFrom_absorbAll]

/-- `MAC m` with a complete key: the run's three parts, without a bound on the length. -/
theorem runCommands_macCommands {s : State} (hseq : s.seq = .idle) (hkv : s.kvalid = true) (m : List Byte) :
    ∃ t, runCommands (macCommands m) s = .next t ∧ t.dout = macOf s.key m ∧ t.dvalid = true ∧ t.hactive = false ∧
      t.seq = .idle ∧ t.key = s.key ∧ t.kvalid = true ∧ t.rsp = s.rsp := by
  have hbegin : exec .macbegin s = .next (beginInner s) := by rw [exec_macbegin_eq, if_pos hseq, if_pos hkv]
  have hupdate : runCommands (updateCommands m) (beginInner s) = .next (absorbAll m (beginInner s)) :=
    runCommands_updateCommands (beginInner_hactive s) (.inr (beginInner_seq s)) m
  have hinner : (absorbAll m (beginInner s)).seq = .inner := by simp
  have hend := exec_macend_eq (absorbAll m (beginInner s))
  rw [if_pos hinner, digestFrom_absorbAll_beginInner, absorbAll_key, beginInner_key] at hend
  have hrun := runCommands_cons_next hend []
  rw [runCommands_nil, ← runCommands_append_next hupdate, ← runCommands_cons_next hbegin] at hrun
  exact ⟨_, hrun, by simp [macOf, hkv]⟩

/-- A MAC after a run that leaves the key and `IDLE`. -/
theorem runCommands_append_macCommands {cmds : List Instr} {s t : State} (h : runCommands cmds s = .next t)
    (hseq : t.seq = .idle) (hkv : t.kvalid = true) (m : List Byte) :
    ∃ u, runCommands (cmds ++ macCommands m) s = .next u ∧ u.dout = macOf t.key m ∧ u.dvalid = true := by
  obtain ⟨u, hrun, hdout, hdv, -⟩ := runCommands_macCommands hseq hkv m
  exact ⟨u, by rw [runCommands_append_next h, hrun], hdout, hdv⟩

/-- Settles O34: the run of `MAC`, and the same after `SETKEY`, which leaves the normalised secret. -/
theorem macComputesHmac : Obligations.MacComputesHmac := by
  refine ⟨fun m s hseq hkv => ?_, fun secret m s hsecret _ hseq => ?_⟩
  · obtain ⟨t, hrun, hdout, hrest⟩ := runCommands_macCommands hseq hkv m
    exact ⟨t, hrun, fun _ => hdout, hrest⟩
  · obtain ⟨k, hset, hkey, hkv, -, hkseq, -⟩ := setkeyNormalizesSecret secret s hseq
    obtain ⟨t, hrun, hdout, hdv⟩ := runCommands_append_macCommands hset hkseq hkv m
    exact ⟨t, hrun, by rw [hdout, hkey hsecret, hmacSha256], hdv⟩

/-- Settles O35: each earlier use ends in `IDLE` with the key it began with, and the digest is a function of key and message. -/
theorem macDoesNotDependOnEarlierUse : Obligations.MacDoesNotDependOnEarlierUse := by
  intro a b s hseq hkv
  have hmac : ∀ {cmds t}, runCommands cmds s = .next t → t.seq = .idle ∧ t.kvalid = true ∧ t.key = s.key →
      ∃ u, runCommands (cmds ++ macCommands b) s = .next u ∧ u.dout = macOf s.key b := by
    rintro cmds t hrun ⟨htseq, htkv, htkey⟩
    obtain ⟨u, hu, hdout, -⟩ := runCommands_append_macCommands hrun htseq htkv b
    exact ⟨u, hu, by rw [hdout, htkey]⟩
  have habandoned : runCommands (.init :: updateCommands a) s = .next (absorbAll a (initHash s)) := by
    have hinit : exec .init s = .next (initHash s) := by simp [exec_init_eq, hseq]
    rw [runCommands_cons_next hinit]
    exact runCommands_updateCommands (initHash_hactive s) (.inl hseq) a
  obtain ⟨m, hm, -, -, -, hmseq, hmkey, hmkv, -⟩ := runCommands_macCommands hseq hkv a
  obtain ⟨t, ht, htdout⟩ := hmac (runCommands_nil s) ⟨hseq, hkv, rfl⟩
  obtain ⟨u, hu, hudout⟩ := hmac hm ⟨hmseq, hmkv, hmkey⟩
  obtain ⟨v, hv, hvdout⟩ := hmac (runCommands_hashCommands hseq a) (by simp [hseq, hkv])
  obtain ⟨w, hw, hwdout⟩ := hmac habandoned (by simp [hseq, hkv])
  exact ⟨t, u, v, w, ht, hu, by rw [hudout, htdout], hv, by rw [hvdout, htdout], hw, by rw [hwdout, htdout]⟩

end Sys2Proof.Machine

namespace Sys2Proof.Software

open Sys2Proof.Machine

/-- Settles O48: `RDDIGEST` after the `MAC` answers its digest, and these answers are what the run adds. -/
theorem signIsHexOfMac : Obligations.SignIsHexOfMac := by
  intro m s _ hseq hkv
  obtain ⟨t, hmac, hdout, hdv, -, htseq, hkey, hkvalid, hrsp⟩ := runCommands_macCommands hseq hkv m
  have hrun : runCommands (macCommands m ++ rddigestCommands) s =
      .next { t with rsp := s.rsp ++ (macOf s.key m).toList } := by
    rw [runCommands_append_next hmac, rddigestReturnsWholeDigest t hdv, hrsp, hdout]
  refine ⟨{ t with rsp := s.rsp ++ (macOf s.key m).toList }, ?_, ?_, rfl, hkey, hkvalid, htseq⟩
  · simp [sign, collect, hrun]
  · simp

/-! ### The published digests -/

/-- SHA-256 of the empty message, by its definition. -/
theorem hex_sha256_empty :
    hex (sha256 []).toList = ascii "e3b0c44298fc1c149afbf4c8996fb92427ae41e4649b934ca495991b7852b855" := by
  decide +kernel

/-- HMAC-SHA256 of "Hi There" under 20 bytes 0x0b, by its definition. -/
theorem hex_hmacSha256_hiThere :
    hex (hmacSha256 (List.replicate 20 0x0b) (ascii "Hi There")).toList =
      ascii "b0344c61d8db38535ca8afceaf0bf12b881dc200c9833da726e9376c2e32cff7" := by
  decide +kernel

/-- Settles O17: the commands compute SHA-256 and HMAC-SHA256, whose values on these inputs are the published ones. -/
theorem publishedDigestsComeOut : Obligations.PublishedDigestsComeOut := by
  constructor
  · obtain ⟨t, hrun, hdout, -⟩ := hashComputesSha256 [] State.reset rfl
    exact ⟨t, hrun, by rw [hdout (by decide), hex_sha256_empty]⟩
  · obtain ⟨k, hset, hkey, hkv, -, hkseq, -⟩ := setkeyNormalizesSecret (List.replicate 20 0x0b) State.reset rfl
    obtain ⟨t, hsign, -⟩ := signIsHexOfMac (ascii "Hi There") k (by decide) hkseq hkv
    refine ⟨k, t, hset, ?_⟩
    rw [hsign, hkey (by decide), ← hmacSha256, hex_hmacSha256_hiThere]

end Sys2Proof.Software
end

section
/-! PROOFS. The six functions bit by bit and the rounds in order (spec/40_compression.md R91 to R96, R101, R102). -/
namespace Sys2Proof.Machine

/-- Settles O12: each bit of the two functions is made of the three bits at its place. -/
theorem chooseAndMajorityBitByBit : Obligations.ChooseAndMajorityBitByBit := by
  intro x y z i hi
  simp only [Ch, Maj, BitVec.getLsbD_xor, BitVec.getLsbD_and, BitVec.getLsbD_not, hi, decide_true, Bool.true_and]
  cases x.getLsbD i <;> cases y.getLsbD i <;> cases z.getLsbD i <;> decide

/-- A shift lets zeros in at the top (R14). -/
theorem getLsbD_shr_eq_ite (x : Word) (n i : Nat) :
    (shr x n).getLsbD i = if i + n < 32 then x.getLsbD (i + n) else false := by
  rw [getLsbD_shr, Nat.add_comm n i]
  split
  · rfl
  · exact BitVec.getLsbD_of_ge x (i + n) (by omega)

/-- Settles O13: an exclusive or of rotations and shifts, each read bit by bit. -/
theorem mixingFunctionsBitByBit : Obligations.MixingFunctionsBitByBit := by
  intro x i hi
  have hrotr : ∀ n < 32, (rotr x n).getLsbD i = x.getLsbD ((i + n) % 32) := fun n hn => getLsbD_rotr x hn hi
  simp (disch := decide) only [bsig0, bsig1, ssig0, ssig1, BitVec.getLsbD_xor, getLsbD_shr_eq_ite, hrotr, and_self]

/-- The working variables after the first `t` rounds (R101). -/
def workAfter (h : Vector Word 8) (block : Vector Byte 64) (t : Nat) : Work :=
  ((K.toList.zip (schedule block).toList).take t).foldl (fun v kw => roundStep kw.1 kw.2 v) (seedWork h)

theorem workAfter_zero (h : Vector Word 8) (block : Vector Byte 64) : workAfter h block 0 = seedWork h := rfl

/-- Round `t` takes `K[t]` and `W[t]`. -/
theorem workAfter_succ (h : Vector Word 8) (block : Vector Byte 64) {t : Nat} (ht : t < 64) :
    workAfter h block (t + 1) = roundStep K[t] (schedule block)[t] (workAfter h block t) := by
  have hround : (K.toList.zip (schedule block).toList)[t]? = some (K[t], (schedule block)[t]) := by
    rw [List.getElem?_zip_eq_some]
    simp [ht]
  rw [workAfter, List.take_add_one, hround, List.foldl_append]
  rfl

/-- All 64 rounds. -/
theorem workAfter_all (h : Vector Word 8) (block : Vector Byte 64) :
    workAfter h block 64 = rounds (schedule block) (seedWork h) := by
  have hlen : (K.toList.zip (schedule block).toList).length ≤ 64 := by simp
  rw [workAfter, List.take_of_length_le hlen, rounds]

/-- Settles O15: the sequence is `workAfter`. -/
theorem compressIsRoundsThenAddBack : Obligations.CompressIsRoundsThenAddBack := by
  intro h block
  refine ⟨workAfter h block, workAfter_zero h block, fun t ht => workAfter_succ h block ht, ?_⟩
  calc compress h block = addBack h (workAfter h block 64) := by rw [compress, ← workAfter_all]
    _ = _ := rfl

end Sys2Proof.Machine
end

section
/-! PROOFS. The absorbed message and the padded stream (spec/10_state.md R35 item 2, spec/41_hash_commands.md R131). -/
namespace Sys2Proof.Machine

/-! ### The absorbed message -/

/-- The pending bytes one by one. -/
theorem pendingBytes_eq_iff {s : State} {p : List Byte} (hp : p.length = s.fill.toNat) :
    pendingBytes s = p ↔ ∀ j, j < s.fill.toNat → s.readByte .buf j = p[j]? := by
  have hbyte : ∀ j, j < s.fill.toNat → (pendingBytes s)[j]? = s.readByte .buf j := by
    intro j hj
    simp [pendingBytes, hj]
  constructor
  · rintro rfl j hj
    exact (hbyte j hj).symm
  · intro h
    refine List.ext_getElem? fun j => ?_
    by_cases hj : j < s.fill.toNat
    · rw [hbyte j hj, h j hj]
    · rw [List.getElem?_eq_none (by rw [pendingBytes_length]; omega), List.getElem?_eq_none (by omega)]

/-- A state that has absorbed `m`: an active hash, the count of `m`, and the hash state that holds `m` over `IV`. -/
theorem absorbed_iff {m : List Byte} {s : State} :
    Absorbed m s ↔ s.hactive = true ∧ s.bitcnt = BitVec.ofNat 64 (8 * m.length) ∧ Holds IV m s := by
  have hfill : s.bitcnt = BitVec.ofNat 64 (8 * m.length) → s.fill.toNat = m.length % 64 := by
    intro h
    rw [fill_toNat, h, BitVec.toNat_ofNat]
    omega
  have hrest : (m.drop (64 * (m.length / 64))).length = m.length % 64 := by
    rw [List.length_drop]
    omega
  constructor
  · rintro ⟨hact, hcount, hfold, hpending⟩
    have hf := hfill hcount
    refine ⟨hact, hcount, hfold, hf, (pendingBytes_eq_iff (by rw [hrest, hf])).mpr fun j hj => ?_⟩
    rw [hpending j (by omega), List.getElem?_drop]
  · rintro ⟨hact, hcount, hfold, hf, hpending⟩
    refine ⟨hact, hcount, hfold, fun j hj => ?_⟩
    rw [(pendingBytes_eq_iff (by rw [hrest, hf])).mp hpending j (by omega), List.getElem?_drop]

/-- Settles O21: the count and what the hash state holds, at the start and under one byte more. -/
theorem absorbExtendsAbsorbedMessage : Obligations.AbsorbExtendsAbsorbedMessage := by
  refine ⟨fun s t h => ?_, fun m b s hs hseq => ?_⟩
  · obtain ⟨-, rfl⟩ : s.seq = .idle ∧ t = initHash s := by simpa using exec_next_cases h
    exact absorbed_iff.mpr ⟨rfl, rfl, holds_initHash s⟩
  · obtain ⟨hact, hcount, hholds⟩ := absorbed_iff.mp hs
    refine ⟨absorb b s, by rw [exec_absorb_eq, if_pos hseq, if_pos hact],
      absorbed_iff.mpr ⟨by simpa using hact, ?_, hholds.absorb b⟩⟩
    apply BitVec.eq_of_toNat_eq
    rw [absorb_bitcnt_toNat, hcount, List.length_append, List.length_singleton, BitVec.toNat_ofNat, BitVec.toNat_ofNat]
    omega

/-! ### The padded stream -/

/-- Eight bytes, most significant first, give the number back (R52). -/
theorem foldl_be64 (L : BitVec 64) : (be64 L).foldl (fun n b => 256 * n + b.toNat) 0 = L.toNat := by
  have hlt := L.isLt
  have hbytes : be64 L = [byte64 L 0, byte64 L 1, byte64 L 2, byte64 L 3, byte64 L 4, byte64 L 5, byte64 L 6, byte64 L 7] :=
    rfl
  rw [hbytes]
  simp only [List.foldl_cons, List.foldl_nil, byte64_toNat]
  omega

theorem paddedStream_length (m : List Byte) :
    (paddedStream m).length = m.length + (9 + (119 - m.length % 64) % 64) := by
  rw [paddedStream, List.length_append, padding_length]

/-- The stream ends in the length field (R131). -/
theorem paddedStream_drop (m : List Byte) :
    (paddedStream m).drop ((paddedStream m).length - 8) = be64 (BitVec.ofNat 64 (8 * m.length)) := by
  have hsplit : paddedStream m = (m ++ 0x80 :: List.replicate ((119 - m.length % 64) % 64) 0) ++
      be64 (BitVec.ofNat 64 (8 * m.length)) := by
    simp [paddedStream, padding]
  rw [hsplit, List.length_append, be64_length, Nat.add_sub_cancel, List.drop_left]

/-- The zeros between the marker and the length field. -/
theorem paddedStream_zeros {m : List Byte} {j : Nat} (hafter : m.length < j) (hbefore : j + 8 < (paddedStream m).length) :
    (paddedStream m)[j]? = some 0x00 := by
  have hj : j < (paddedStream m).length := by omega
  have hbyte := padded_getD m (BitVec.ofNat 64 (8 * m.length)) j
  rw [paddedStream_length] at hbefore
  rw [if_neg (by omega), if_neg (by omega), if_pos (by omega), ← paddedStream] at hbyte
  rw [List.getElem?_eq_getElem hj, ← hbyte, List.getD_eq_getElem _ _ hj]

/-- Settles O25: the length by counting, the parts in the order in which the stream is put together. -/
theorem paddedStreamShape : Obligations.PaddedStreamShape := by
  intro m
  refine ⟨?_, List.take_left, ?_, fun j => paddedStream_zeros, ?_⟩
  · rw [paddedStream_length, transformCount]
    split <;> omega
  · simp [paddedStream, padding]
  · rw [paddedStream_drop, foldl_be64, BitVec.toNat_ofNat]

end Sys2Proof.Machine
end

section
/-! PROOFS. Decimal text and the sensor message (spec/48_host_software.md R176 to R178). -/
namespace Sys2Proof.Software

/-! ### Decimal text -/

/-- One decimal digit. -/
def decDigit (n : Nat) : Byte := BitVec.ofNat 8 (0x30 + n)

theorem decDigit_toNat {n : Nat} (hn : n < 10) : (decDigit n).toNat = 0x30 + n := by
  rw [decDigit, BitVec.toNat_ofNat]
  omega

/-- The library's digit characters in ASCII. -/
theorem ascii_digitChar : ∀ n < 10, BitVec.ofNat 8 (Nat.digitChar n).toNat = decDigit n := by decide

theorem dec_of_lt {n : Nat} (hn : n < 10) : dec n = [decDigit n] := by
  rw [dec, Nat.toDigits_of_lt_base hn, List.map_singleton, ascii_digitChar n hn]

theorem dec_of_ge {n : Nat} (hn : 10 ≤ n) : dec n = dec (n / 10) ++ [decDigit (n % 10)] := by
  rw [dec, Nat.toDigits_of_base_le (by decide) hn, List.map_append, List.map_singleton,
    ascii_digitChar _ (Nat.mod_lt n (by decide)), dec]

/-- Decimal text is built digit by digit: what holds of one digit and is kept by one more holds of every number's text. -/
theorem dec_induction {P : Nat → Prop} (hdigit : ∀ n < 10, P n) (hmore : ∀ n, 10 ≤ n → P (n / 10) → P n) (n : Nat) :
    P n := by
  induction n using Nat.strongRecOn with
  | ind n ih =>
    by_cases hn : n < 10
    · exact hdigit n hn
    · exact hmore n (by omega) (ih (n / 10) (by omega))

/-- The digits give the number back, most significant first. -/
theorem dec_foldl (n : Nat) : (dec n).foldl (fun v c => 10 * v + (c.toNat - 0x30)) 0 = n := by
  induction n using dec_induction with
  | hdigit n hn =>
    rw [dec_of_lt hn, List.foldl_cons, List.foldl_nil, decDigit_toNat hn]
    omega
  | hmore n hn ih =>
    rw [dec_of_ge hn, List.foldl_append, ih, List.foldl_cons, List.foldl_nil, decDigit_toNat (Nat.mod_lt n (by decide))]
    omega

theorem isDigit_of_mem_dec (n : Nat) : ∀ c ∈ dec n, 0x30 ≤ c.toNat ∧ c.toNat ≤ 0x39 := by
  have hdigit : ∀ m < 10, 0x30 ≤ (decDigit m).toNat ∧ (decDigit m).toNat ≤ 0x39 := by
    intro m hm
    rw [decDigit_toNat hm]
    omega
  induction n using dec_induction with
  | hdigit n hn => simpa [dec_of_lt hn] using hdigit n hn
  | hmore n hn ih =>
    rw [dec_of_ge hn]
    exact List.forall_mem_append.mpr ⟨ih, by simpa using hdigit (n % 10) (Nat.mod_lt n (by decide))⟩

theorem dec_ne_nil (n : Nat) : dec n ≠ [] := by
  simp [dec, Nat.toDigits_ne_nil]

/-- No leading zero: the text begins with the digit 0 for the number 0 alone. -/
theorem eq_zero_of_dec_head (n : Nat) : (dec n).head? = some 0x30 → n = 0 := by
  induction n using dec_induction with
  | hdigit n hn =>
    rw [dec_of_lt hn]
    intro h
    have hzero : decDigit n = 0x30 := by simpa using h
    have hnum := congrArg BitVec.toNat hzero
    rw [decDigit_toNat hn, show (0x30 : Byte).toNat = 0x30 from rfl] at hnum
    omega
  | hmore n hn ih =>
    rw [dec_of_ge hn, List.head?_append_of_ne_nil _ (dec_ne_nil _)]
    intro h
    have := ih h
    omega

/-- Settles O51: the digits by induction on the text; the sign is the one `decInt` writes. -/
theorem decimalTextIsCanonical : Obligations.DecimalTextIsCanonical :=
  ⟨fun n => ⟨dec_foldl n, isDigit_of_mem_dec n, dec_ne_nil n, eq_zero_of_dec_head n, dec_of_lt (by decide)⟩, fun _ => rfl⟩

/-! ### The sensor message -/

/-- The signature stands after the payload it signs (R176). -/
theorem signPayload_of_sign {p x : Text} {s t : Machine.State} (h : sign p s = .next (t, x)) :
    signPayload p s = .next (t, p ++ ascii "|sig:" ++ x) := by
  simp [signPayload, h]

/-- The payload of the rule's example (R176). -/
theorem payload_example :
    payload (ascii "temperature") (ascii "23.50") 1000 = ascii "temperature:23.50|ts:1000" := by
  decide +kernel

/-- Settles O50: both overloads sign the payload of their value's text; in the example the rendering is the one the rule fixes. -/
theorem sensorMessageFormat : Obligations.SensorMessageFormat := by
  refine ⟨?float, ?fixed, ?int⟩
  case float =>
    rintro α n r type value ts s t x p rfl h
    exact signPayload_of_sign h
  case fixed =>
    intro α n r value ts s t x hvalue hts h
    have hsigned := signPayload_of_sign h
    have htext : ascii "temperature:23.50|ts:1000" ++ ascii "|sig:" = ascii "temperature:23.50|ts:1000|sig:" := by
      decide +kernel
    rw [htext] at hsigned
    rw [signSensorFloat, r.fmt2_fixed value hvalue, hts, payload_example, hsigned]
  case int =>
    rintro k n signed type value ts s t x p rfl h
    exact signPayload_of_sign h

end Sys2Proof.Software
end

section
/-! PROOFS. The assembler on the lines that list a command (spec/30_encoding.md R79). -/
namespace Sys2Proof.Assembler

open Sys2Proof.Software

/-- The digits `hex` writes belong to a number. -/
theorem isNumberChar_hexDigit : ∀ n < 16, isNumberChar (hexDigit n) = true := by decide

/-- Two hexadecimal digits as a number give their byte back (R171). -/
theorem number_hexByte (b : Byte) : number 16 (hexByte b) = some b.toNat := by
  have hhigh : b.toNat / 16 < 16 := by have := b.isLt; omega
  have hlow : b.toNat % 16 < 16 := Nat.mod_lt _ (by decide)
  simp [number, hexByte, digitValue_hexDigit _ hhigh, digitValue_hexDigit _ hlow, hhigh, hlow, Nat.div_add_mod']

/-- The operand of a listed line, with nothing after it. -/
theorem operand_hex (b : Byte) : operand (0x30#8 :: 0x78#8 :: hexByte b) = some b := by
  have hhigh : b.toNat / 16 < 16 := by have := b.isLt; omega
  have hlow : b.toNat % 16 < 16 := Nat.mod_lt _ (by decide)
  have hchars : ∀ c ∈ 0x30#8 :: 0x78#8 :: hexByte b, isNumberChar c = true := by
    simp only [hexByte, List.forall_mem_cons, isNumberChar_hexDigit _ hhigh, isNumberChar_hexDigit _ hlow]
    exact ⟨by decide, by decide, trivial, trivial, by simp⟩
  have htake := List.takeWhile_eq_self_iff.mpr hchars
  have hdrop := List.dropWhile_eq_nil_iff.mpr hchars
  simp [operand, htake, hdrop, number_hexByte, atEnd, b.isLt]

/-- A line of a mnemonic, a space and a hexadecimal operand falls into the mnemonic and the operand. -/
theorem line_parts {name : Text} (hne : name ≠ []) (hname : ∀ c ∈ name, isNumberChar c = true) (b : Byte) :
    let line := name ++ 0x20#8 :: 0x30#8 :: 0x78#8 :: hexByte b
    line.dropWhile isBlank = line ∧ line.takeWhile isNumberChar = name ∧
      (line.dropWhile isNumberChar).dropWhile isBlank = 0x30#8 :: 0x78#8 :: hexByte b := by
  refine ⟨?_, ?_, ?_⟩
  · obtain ⟨c, cs, rfl⟩ := List.exists_cons_of_ne_nil hne
    have hblank : isBlank c = false := by
      have hc := hname c (by simp)
      simp only [isNumberChar, Bool.and_eq_true, Bool.not_eq_true'] at hc
      exact hc.1
    simp [hblank]
  · rw [List.takeWhile_append_of_pos hname]
    simp [isNumberChar, isBlank]
  · rw [List.dropWhile_append_of_pos hname]
    simp [isNumberChar, isBlank]

/-- The line of `ABSORB`. -/
theorem assemble_absorb (b : Byte) : assemble (ascii "ABSORB 0x" ++ hexByte b) = some (.absorb b) := by
  have htext : ascii "ABSORB 0x" = ascii "ABSORB" ++ [0x20#8, 0x30#8, 0x78#8] := by decide +kernel
  obtain ⟨hline, hname, hrest⟩ := line_parts (name := ascii "ABSORB") (by decide +kernel) (by decide +kernel) b
  rw [htext, List.append_assoc]
  simp only [List.cons_append, List.nil_append, assemble, hline, hname, hrest, operand_hex]
  rw [if_neg (by decide +kernel), if_pos trivial]
  rfl

/-- The line of `KEYBYTE`. -/
theorem assemble_keybyte (b : Byte) : assemble (ascii "KEYBYTE 0x" ++ hexByte b) = some (.keybyte b) := by
  have htext : ascii "KEYBYTE 0x" = ascii "KEYBYTE" ++ [0x20#8, 0x30#8, 0x78#8] := by decide +kernel
  obtain ⟨hline, hname, hrest⟩ := line_parts (name := ascii "KEYBYTE") (by decide +kernel) (by decide +kernel) b
  rw [htext, List.append_assoc]
  simp only [List.cons_append, List.nil_append, assemble, hline, hname, hrest, operand_hex]
  rw [if_neg (by decide +kernel), if_neg (by decide +kernel), if_neg (by decide +kernel), if_neg (by decide +kernel),
    if_neg (by decide +kernel), if_pos trivial]
  rfl

/-- The line of `RDDIG`, whose index must be below 32. -/
theorem assemble_rddig {j : Byte} (hwf : Instr.WellFormed (.rddig j) = true) :
    assemble (ascii "RDDIG 0x" ++ hexByte j) = some (.rddig j) := by
  have htext : ascii "RDDIG 0x" = ascii "RDDIG" ++ [0x20#8, 0x30#8, 0x78#8] := by decide +kernel
  obtain ⟨hline, hname, hrest⟩ := line_parts (name := ascii "RDDIG") (by decide +kernel) (by decide +kernel) j
  rw [htext, List.append_assoc]
  simp only [List.cons_append, List.nil_append, assemble, hline, hname, hrest, operand_hex]
  rw [if_neg (by decide +kernel), if_neg (by decide +kernel), if_neg (by decide +kernel), if_pos trivial]
  exact if_pos hwf

/-- Settles O5: the lines with an operand by their parts; the others are one line each. -/
theorem assembleListingGivesCommandBack : Obligations.AssembleListingGivesCommandBack := by
  intro i hwf
  cases i with
  | absorb b => exact assemble_absorb b
  | rddig j => exact assemble_rddig hwf
  | keybyte b => exact assemble_keybyte b
  | _ => decide +kernel

end Sys2Proof.Assembler
end
